-- ==== Sys2Proof/Word.lean ====
section
/-! DEFINITION. The word of the 16-bit variant (00_scope.md R6, R7). -/

namespace Sys2Proof

/-- A Word: an unsigned 16-bit integer, `XLEN = 16` (R6). Bit 0 is the least significant bit (R7). -/
abbrev Word := BitVec 16

end Sys2Proof
end

