-- ==== Sys2Proof/Config.lean ====
section
/-! DEFINITION. The parameters of the core (00_scope.md R6). The spec leaves no value of a result
undefined (93_implementation_defined.md), so there is no free value here: what is open is an argument. -/

namespace Sys2Proof

/-- The largest number of cells a memory can have: an index is a Word (R6, 20_memory.md R30). -/
def Config.maxCells : Nat := 2 ^ 16

/-- `DMEM_SIZE` when the environment supplies none. DESIGN CHOICE (log entry 3): R6 leaves it OPEN;
the test vectors of 95_test_vectors.md use this size. Unsafe. -/
def Config.defaultDmemSize : Nat := 2 ^ 16

/-- The OPEN parameters of R6 that the environment fixes before the first step (R202).
`IMEM_SIZE` is the length of `program`. A `dmemInit` shorter than `dmemSize` leaves the remaining cells
at the default 0x0000 (DESIGN CHOICE, log entry 10; unsafe). -/
structure Params where
  program  : List Word := []
  dmemSize : Nat := Config.defaultDmemSize
  dmemInit : List Word := []
  deriving DecidableEq, Repr

end Sys2Proof
end

