-- ==== Sys2Proof/Syntax.lean ====
section
/-! DEFINITION. The instructions of SLP16: one constructor per row of opcode_table.json
(30_encoding.md R55), and the names their operands are made of. Every operand type holds exactly the
values its field can encode, so every `Instr` is an instruction of the machine (R58). -/

namespace Sys2Proof

/-- The condition codes of R57: always, zero, negative, neither ("positive"). -/
inductive Cond where
  | al | z | n | p
  deriving DecidableEq, Repr

/-- A register index: one of `R0` to `R7` (10_state.md R10). -/
abbrev RegIdx := Fin 8

/-- The 3-bit literal operand (R54). -/
abbrev Lit := BitVec 3

/-- Operand B before it is resolved: the register `src2` names (`i = 0`) or the literal (`i = 1`), R54. -/
inductive OperandB where
  | reg (m : RegIdx)
  | lit (k : Lit)
  deriving DecidableEq, Repr

/-- The eight ALU operations of the 16-bit table (R55, 41_alu.md R90). -/
inductive AluOp where
  | and | or | add | sub | mul | div | rem | xor
  deriving DecidableEq, Repr

/-- How a memory-manipulation instruction forms its address (R56, `operation`). -/
inductive AddrOp where
  | add | sub
  deriving DecidableEq, Repr

/-- A memory-manipulation opcode taken apart by R56: `write` (store), `writeBack`, `operation`. -/
structure MemOp where
  write     : Bool
  writeBack : Bool
  operation : AddrOp
  deriving DecidableEq, Repr

/-- The seven fields of an instruction word as plain numbers (R51, R52). Nothing here bounds a field;
`Fields.wf` does. -/
structure Fields where
  cond   : Nat
  mem    : Nat
  opcode : Nat
  rn     : Nat
  rd     : Nat
  i      : Nat
  src2   : Nat
  deriving DecidableEq, Repr

/-- The instructions, operands in the order of the assembly syntax of R60 (destination first). In a
store `rd` is the register stored. -/
inductive Instr where
  | andReg (c : Cond) (rd rn rm : RegIdx)
  | andLit (c : Cond) (rd rn : RegIdx) (k : Lit)
  | orReg (c : Cond) (rd rn rm : RegIdx)
  | orLit (c : Cond) (rd rn : RegIdx) (k : Lit)
  | addReg (c : Cond) (rd rn rm : RegIdx)
  | addLit (c : Cond) (rd rn : RegIdx) (k : Lit)
  | subReg (c : Cond) (rd rn rm : RegIdx)
  | subLit (c : Cond) (rd rn : RegIdx) (k : Lit)
  | mulReg (c : Cond) (rd rn rm : RegIdx)
  | mulLit (c : Cond) (rd rn : RegIdx) (k : Lit)
  | divReg (c : Cond) (rd rn rm : RegIdx)
  | divLit (c : Cond) (rd rn : RegIdx) (k : Lit)
  | remReg (c : Cond) (rd rn rm : RegIdx)
  | remLit (c : Cond) (rd rn : RegIdx) (k : Lit)
  | xorReg (c : Cond) (rd rn rm : RegIdx)
  | xorLit (c : Cond) (rd rn : RegIdx) (k : Lit)
  | ldaddReg (c : Cond) (rd rn rm : RegIdx)
  | ldaddLit (c : Cond) (rd rn : RegIdx) (k : Lit)
  | ldsubReg (c : Cond) (rd rn rm : RegIdx)
  | ldsubLit (c : Cond) (rd rn : RegIdx) (k : Lit)
  | ldaddwReg (c : Cond) (rd rn rm : RegIdx)
  | ldaddwLit (c : Cond) (rd rn : RegIdx) (k : Lit)
  | ldsubwReg (c : Cond) (rd rn rm : RegIdx)
  | ldsubwLit (c : Cond) (rd rn : RegIdx) (k : Lit)
  | staddReg (c : Cond) (rd rn rm : RegIdx)
  | staddLit (c : Cond) (rd rn : RegIdx) (k : Lit)
  | stsubReg (c : Cond) (rd rn rm : RegIdx)
  | stsubLit (c : Cond) (rd rn : RegIdx) (k : Lit)
  | staddwReg (c : Cond) (rd rn rm : RegIdx)
  | staddwLit (c : Cond) (rd rn : RegIdx) (k : Lit)
  | stsubwReg (c : Cond) (rd rn rm : RegIdx)
  | stsubwLit (c : Cond) (rd rn : RegIdx) (k : Lit)
  deriving DecidableEq, Repr

end Sys2Proof
end

