-- ==== Sys2Proof/WellFormed.lean ====
section
/-! DEFINITION. The checks on what can be ill-formed: a record of instruction fields given as numbers
(30_encoding.md R53, "each argument in the range of its field") and the launch parameters
(00_scope.md R6, 70_reset_and_hazards.md R202). An `Instr` cannot be ill-formed: its operand types hold
exactly the values of their fields. -/

namespace Sys2Proof

/-- Each field is in the range of its width: 2, 1, 3, 3, 3, 1, 3 bits (R51, R53). -/
def Fields.wf (f : Fields) : Bool :=
  decide (f.cond < 4) && decide (f.mem < 2) && decide (f.opcode < 8) && decide (f.rn < 8) &&
  decide (f.rd < 8) && decide (f.i < 2) && decide (f.src2 < 8)

/-- The parameters are a possible launch: `0 <= IMEM_SIZE <= 2^16`, `1 <= DMEM_SIZE <= 2^16` (R6, R202),
and the initial data fit the data memory. -/
def Params.wf (p : Params) : Bool :=
  decide (p.program.length ≤ Config.maxCells) && decide (1 ≤ p.dmemSize) &&
  decide (p.dmemSize ≤ Config.maxCells) && decide (p.dmemInit.length ≤ p.dmemSize)

end Sys2Proof
end

