-- ==== Sys2Proof/Decode.lean ====
section
/-! DEFINITION. The instruction decoder and the encoder (30_encoding.md R50 to R58,
40_cycle_and_decode.md R73, R75). `LAYOUT` (92_eei_decisions.md D2) stands in `extractFields` and
`encodeFields` and nowhere else. -/

namespace Sys2Proof

/-- Why a record of fields is no instruction. None of these happens for the fields of a Word (R58): they
are the "invalid condition code", "invalid opcode" and "out-of-range index" the source asks a decoder
with wider types to name (41_alu.md R102, 60_exceptions.md R184, R185, 10_state.md R12), and a one-bit
field or a literal out of its range, which the spec does not name. -/
inductive DecodeError where
  | invalidCondition (code : Nat)
  | invalidOpcode (op : Nat)
  | registerIndex (k : Nat)
  | fieldOutOfRange (value : Nat)
  deriving DecidableEq, Repr

/-- Field extraction, "each right-shifted and masked from the full word" (R52). -/
def extractFields (w : Word) : Fields where
  cond   := (w.toNat >>> 14) &&& 0b11
  mem    := (w.toNat >>> 13) &&& 0b1
  opcode := (w.toNat >>> 10) &&& 0b111
  rn     := (w.toNat >>> 7) &&& 0b111
  rd     := (w.toNat >>> 4) &&& 0b111
  i      := (w.toNat >>> 3) &&& 0b1
  src2   := w.toNat &&& 0b111

/-- The encoding function of R53. -/
def encodeFields (f : Fields) : Word :=
  BitVec.ofNat 16 (f.cond <<< 14 ||| f.mem <<< 13 ||| f.opcode <<< 10 ||| f.rn <<< 7 ||| f.rd <<< 4 |||
    f.i <<< 3 ||| f.src2)

/-- The 2-bit code of a condition (R57). -/
def Cond.code : Cond → Nat
  | .al => 0b00
  | .z => 0b01
  | .n => 0b10
  | .p => 0b11

/-- The condition a code names; a code outside the table is an invalid condition code (R185). -/
def condOfCode : Nat → Except DecodeError Cond
  | 0 => .ok .al
  | 1 => .ok .z
  | 2 => .ok .n
  | 3 => .ok .p
  | code => .error (.invalidCondition code)

/-- The condition evaluator (40_cycle_and_decode.md R73), defined on all four flag pairs (10_state.md R18). -/
def condex (c : Cond) (n z : Bool) : Bool :=
  match c with
  | .al => true
  | .z => z
  | .n => n
  | .p => !n && !z

/-- The 3-bit opcode of an ALU operation (R55). -/
def AluOp.code : AluOp → Nat
  | .and => 0b000
  | .or => 0b001
  | .add => 0b010
  | .sub => 0b011
  | .mul => 0b100
  | .div => 0b101
  | .rem => 0b110
  | .xor => 0b111

/-- The ALU operation an opcode names; 8 and above is an invalid opcode (41_alu.md R102). -/
def aluOpOfCode : Nat → Except DecodeError AluOp
  | 0 => .ok .and
  | 1 => .ok .or
  | 2 => .ok .add
  | 3 => .ok .sub
  | 4 => .ok .mul
  | 5 => .ok .div
  | 6 => .ok .rem
  | 7 => .ok .xor
  | op => .error (.invalidOpcode op)

/-- `operation`, bit 0 of a memory-manipulation opcode (R56). -/
def AddrOp.code : AddrOp → Nat
  | .add => 0
  | .sub => 1

/-- The 3-bit opcode of a memory operation: `write`, `write_back`, `operation` from bit 2 down (R56). -/
def MemOp.code (m : MemOp) : Nat :=
  m.write.toNat <<< 2 ||| m.writeBack.toNat <<< 1 ||| m.operation.code

/-- Decomposition of a memory-manipulation opcode (R56). -/
def memOpOfCode (op : Nat) : Except DecodeError MemOp :=
  if op < 8 then
    .ok { write := op.testBit 2, writeBack := op.testBit 1, operation := if op.testBit 0 then .sub else .add }
  else .error (.invalidOpcode op)

/-- A register index; 8 or more "is a fatal indexing error" (10_state.md R12). -/
def regOfIndex (k : Nat) : Except DecodeError RegIdx :=
  if h : k < 8 then .ok ⟨k, h⟩ else .error (.registerIndex k)

/-- Operand B from `i` and `src2` (R54). -/
def operandOfFields (i src2 : Nat) : Except DecodeError OperandB :=
  match i with
  | 0 => (regOfIndex src2).map .reg
  | 1 => if src2 < 8 then .ok (.lit (BitVec.ofNat 3 src2)) else .error (.fieldOutOfRange src2)
  | b => .error (.fieldOutOfRange b)

/-- The `i` field of an operand B. -/
def OperandB.iBit : OperandB → Nat
  | .reg _ => 0
  | .lit _ => 1

/-- The `src2` field of an operand B. -/
def OperandB.src2 : OperandB → Nat
  | .reg m => m.val
  | .lit k => k.toNat

/-- The data-processing instruction of an operation (R55, `mem = 0`). -/
def dpInstr (op : AluOp) (c : Cond) (rd rn : RegIdx) (b : OperandB) : Instr :=
  match op, b with
  | .and, .reg m => .andReg c rd rn m
  | .and, .lit k => .andLit c rd rn k
  | .or, .reg m => .orReg c rd rn m
  | .or, .lit k => .orLit c rd rn k
  | .add, .reg m => .addReg c rd rn m
  | .add, .lit k => .addLit c rd rn k
  | .sub, .reg m => .subReg c rd rn m
  | .sub, .lit k => .subLit c rd rn k
  | .mul, .reg m => .mulReg c rd rn m
  | .mul, .lit k => .mulLit c rd rn k
  | .div, .reg m => .divReg c rd rn m
  | .div, .lit k => .divLit c rd rn k
  | .rem, .reg m => .remReg c rd rn m
  | .rem, .lit k => .remLit c rd rn k
  | .xor, .reg m => .xorReg c rd rn m
  | .xor, .lit k => .xorLit c rd rn k

/-- The memory-manipulation instruction of an operation (R55, `mem = 1`). -/
def mmInstr (o : MemOp) (c : Cond) (rd rn : RegIdx) (b : OperandB) : Instr :=
  match o.write, o.writeBack, o.operation, b with
  | false, false, .add, .reg m => .ldaddReg c rd rn m
  | false, false, .add, .lit k => .ldaddLit c rd rn k
  | false, false, .sub, .reg m => .ldsubReg c rd rn m
  | false, false, .sub, .lit k => .ldsubLit c rd rn k
  | false, true, .add, .reg m => .ldaddwReg c rd rn m
  | false, true, .add, .lit k => .ldaddwLit c rd rn k
  | false, true, .sub, .reg m => .ldsubwReg c rd rn m
  | false, true, .sub, .lit k => .ldsubwLit c rd rn k
  | true, false, .add, .reg m => .staddReg c rd rn m
  | true, false, .add, .lit k => .staddLit c rd rn k
  | true, false, .sub, .reg m => .stsubReg c rd rn m
  | true, false, .sub, .lit k => .stsubLit c rd rn k
  | true, true, .add, .reg m => .staddwReg c rd rn m
  | true, true, .add, .lit k => .staddwLit c rd rn k
  | true, true, .sub, .reg m => .stsubwReg c rd rn m
  | true, true, .sub, .lit k => .stsubwLit c rd rn k

/-- The fields of a data-processing instruction (R51, R55). -/
def dpFields (op : AluOp) (c : Cond) (rd rn : RegIdx) (b : OperandB) : Fields where
  cond := c.code
  mem := 0
  opcode := op.code
  rn := rn.val
  rd := rd.val
  i := b.iBit
  src2 := b.src2

/-- The fields of a memory-manipulation instruction (R51, R55, R56). -/
def mmFields (o : MemOp) (c : Cond) (rd rn : RegIdx) (b : OperandB) : Fields where
  cond := c.code
  mem := 1
  opcode := o.code
  rn := rn.val
  rd := rd.val
  i := b.iBit
  src2 := b.src2

/-- The instruction a record of fields stands for (R55), total and rejecting by name. -/
def decodeFields (f : Fields) : Except DecodeError Instr := do
  let c ← condOfCode f.cond
  let rn ← regOfIndex f.rn
  let rd ← regOfIndex f.rd
  let b ← operandOfFields f.i f.src2
  match f.mem with
  | 0 => do
    let op ← aluOpOfCode f.opcode
    return dpInstr op c rd rn b
  | 1 => do
    let o ← memOpOfCode f.opcode
    return mmInstr o c rd rn b
  | m => .error (.fieldOutOfRange m)

/-- The instruction a Word stands for, whatever the flags (R51, R52, R55). -/
def decode (w : Word) : Except DecodeError Instr :=
  decodeFields (extractFields w)

/-- The InstructionDecoder of 40_cycle_and_decode.md R75: "a pure function of (raw word, current flags)",
`none` when the condition fails. The condition is extracted and tested before the other fields. -/
def decodeGated (w : Word) (n z : Bool) : Except DecodeError (Option Instr) := do
  let c ← condOfCode ((w.toNat >>> 14) &&& 0b11)
  if condex c n z then
    let i ← decode w
    return some i
  else return none

/-- The instruction the decoder reads from a word whose bits, numbered as opcode_table.json numbers them,
are `w`; `none` where it refuses or where `w` has bits beyond one 16-bit word (R50). -/
def decodeTableWord (nbits w : Nat) : Option Instr :=
  let bits := w % 2 ^ nbits
  if bits < 2 ^ 16 then
    match decode (BitVec.ofNat 16 bits) with
    | .ok i => some i
    | .error _ => none
  else none

/-- The fields of an instruction, row by row of the opcode table (R51, R55, R56). -/
def Instr.fields : Instr → Fields
  | .andReg c rd rn m => dpFields .and c rd rn (.reg m)
  | .andLit c rd rn k => dpFields .and c rd rn (.lit k)
  | .orReg c rd rn m => dpFields .or c rd rn (.reg m)
  | .orLit c rd rn k => dpFields .or c rd rn (.lit k)
  | .addReg c rd rn m => dpFields .add c rd rn (.reg m)
  | .addLit c rd rn k => dpFields .add c rd rn (.lit k)
  | .subReg c rd rn m => dpFields .sub c rd rn (.reg m)
  | .subLit c rd rn k => dpFields .sub c rd rn (.lit k)
  | .mulReg c rd rn m => dpFields .mul c rd rn (.reg m)
  | .mulLit c rd rn k => dpFields .mul c rd rn (.lit k)
  | .divReg c rd rn m => dpFields .div c rd rn (.reg m)
  | .divLit c rd rn k => dpFields .div c rd rn (.lit k)
  | .remReg c rd rn m => dpFields .rem c rd rn (.reg m)
  | .remLit c rd rn k => dpFields .rem c rd rn (.lit k)
  | .xorReg c rd rn m => dpFields .xor c rd rn (.reg m)
  | .xorLit c rd rn k => dpFields .xor c rd rn (.lit k)
  | .ldaddReg c rd rn m => mmFields ⟨false, false, .add⟩ c rd rn (.reg m)
  | .ldaddLit c rd rn k => mmFields ⟨false, false, .add⟩ c rd rn (.lit k)
  | .ldsubReg c rd rn m => mmFields ⟨false, false, .sub⟩ c rd rn (.reg m)
  | .ldsubLit c rd rn k => mmFields ⟨false, false, .sub⟩ c rd rn (.lit k)
  | .ldaddwReg c rd rn m => mmFields ⟨false, true, .add⟩ c rd rn (.reg m)
  | .ldaddwLit c rd rn k => mmFields ⟨false, true, .add⟩ c rd rn (.lit k)
  | .ldsubwReg c rd rn m => mmFields ⟨false, true, .sub⟩ c rd rn (.reg m)
  | .ldsubwLit c rd rn k => mmFields ⟨false, true, .sub⟩ c rd rn (.lit k)
  | .staddReg c rd rn m => mmFields ⟨true, false, .add⟩ c rd rn (.reg m)
  | .staddLit c rd rn k => mmFields ⟨true, false, .add⟩ c rd rn (.lit k)
  | .stsubReg c rd rn m => mmFields ⟨true, false, .sub⟩ c rd rn (.reg m)
  | .stsubLit c rd rn k => mmFields ⟨true, false, .sub⟩ c rd rn (.lit k)
  | .staddwReg c rd rn m => mmFields ⟨true, true, .add⟩ c rd rn (.reg m)
  | .staddwLit c rd rn k => mmFields ⟨true, true, .add⟩ c rd rn (.lit k)
  | .stsubwReg c rd rn m => mmFields ⟨true, true, .sub⟩ c rd rn (.reg m)
  | .stsubwLit c rd rn k => mmFields ⟨true, true, .sub⟩ c rd rn (.lit k)

/-- The word of an instruction (R53). -/
def encode (i : Instr) : Word :=
  encodeFields i.fields

/-- The condition an instruction carries (40_cycle_and_decode.md R75: `cond` is a field of the decoded
Instruction). -/
def Instr.cond : Instr → Cond
  | .andReg c _ _ _ | .andLit c _ _ _ | .orReg c _ _ _ | .orLit c _ _ _ => c
  | .addReg c _ _ _ | .addLit c _ _ _ | .subReg c _ _ _ | .subLit c _ _ _ => c
  | .mulReg c _ _ _ | .mulLit c _ _ _ | .divReg c _ _ _ | .divLit c _ _ _ => c
  | .remReg c _ _ _ | .remLit c _ _ _ | .xorReg c _ _ _ | .xorLit c _ _ _ => c
  | .ldaddReg c _ _ _ | .ldaddLit c _ _ _ | .ldsubReg c _ _ _ | .ldsubLit c _ _ _ => c
  | .ldaddwReg c _ _ _ | .ldaddwLit c _ _ _ | .ldsubwReg c _ _ _ | .ldsubwLit c _ _ _ => c
  | .staddReg c _ _ _ | .staddLit c _ _ _ | .stsubReg c _ _ _ | .stsubLit c _ _ _ => c
  | .staddwReg c _ _ _ | .staddwLit c _ _ _ | .stsubwReg c _ _ _ | .stsubwLit c _ _ _ => c

end Sys2Proof
end

