-- ==== Sys2Proof/Machine/State.lean ====
section
/-! DEFINITION. The state of the core (10_state.md): the register file with its latch, the two flags, the
two memories with their latches and sizes, and the recorded fault; the reasons a step can stop; reset. -/

namespace Sys2Proof.Machine

/-- Which of the two dividing operations raised `DivideByZero` (60_exceptions.md R180). -/
inductive DivOp where
  | div | rem
  deriving DecidableEq, Repr

/-- The fatal faults, with the information R180 says each carries. `pcOld` is the index of the failing
instruction and `instr` its word. A fault is recorded in `State.fault` by the step that raises it; the
step of a faulted core then answers it (R181, 40_cycle_and_decode.md R82). All are safe: the machine stops
where the spec says it stops. -/
inductive Fault where
  /-- `IndexOutOfRange(imem, a)`: raised by the fetch of an instruction at `a >= IMEM_SIZE` (R186). Safe. -/
  | imemIndexOutOfRange (a : Word)
  /-- `IndexOutOfRange(dmem, a)`: raised by a load or store whose condition passed and whose effective
  address is `a >= DMEM_SIZE` (R186). Safe. -/
  | dmemIndexOutOfRange (a pcOld instr : Word)
  /-- `IndexOutOfRange(rf, k)`: raised for a register index of 8 or more; unreachable, since every index
  is a 3-bit field (10_state.md R12). Safe. -/
  | rfIndexOutOfRange (k : Nat)
  /-- `DivideByZero(op, a)`: raised by DIV and REM with operand B zero; `a` is the dividend (R183). Safe:
  the spec's decision D6. -/
  | divideByZero (op : DivOp) (a pcOld instr : Word)
  /-- `InvalidOpcode`: raised for an opcode of 8 or more; unreachable (R184). Safe. -/
  | invalidOpcode (op : Nat)
  /-- `InvalidCondition`: raised for a condition code above 3; unreachable (R185). Safe. -/
  | invalidCondition (code : Nat)
  deriving DecidableEq, Repr

/-- What the model gives no meaning to. No instruction of the opcode table ends in one. -/
inductive Refusal where
  /-- An instruction without a meaning yet; raised by no arm. Safe. -/
  | notModelled (mnemonic : String)
  /-- A one-bit field or a literal outside its range; raised by `rejectFields`; unreachable, since a field
  of a Word is in its range. Safe. -/
  | fieldOutOfRange (value : Nat)
  /-- A request to run the 32-bit variant, whose instruction encoding the source does not give; raised by
  `launchVariant` (45_variant32.md R165). Safe. -/
  | variant32HasNoEncoding
  /-- A 32-bit shift by 32 places or more, `SHIFT32_POLICY` left open; raised by `alu32`
  (45_variant32.md R162). Safe. -/
  | shift32AmountOpen (amount : BitVec 32)
  deriving DecidableEq, Repr

/-- The RegisterFile: eight Words and the shared write-enable latch `rf.we` (10_state.md R10, R13). -/
structure RegFile where
  regs : Vector Word 8
  we   : Bool
  deriving DecidableEq, Repr

/-- One cell of a memory: its index and its Word. The cells are whole Words, since R35 of 20_memory.md
forbids a byte view (log entry 1). -/
abbrev Cell := Nat × Word

/-- A Memory: its size, its cells and its write-enable latch (20_memory.md R31). Cells are listed by
strictly rising index, below `size`, and none holds the value 0x0000 that an unlisted index reads as
(`Memory.wf` in Machine/Ops.lean; log entry 4). -/
structure Memory where
  size  : Nat
  cells : List Cell
  we    : Bool
  deriving DecidableEq, Repr

/-- The whole state of the core (10_state.md; the list of INVENTORY.md). The program counter is register
7 of the register file (R15). -/
structure State where
  rf    : RegFile
  n     : Bool
  z     : Bool
  imem  : Memory
  dmem  : Memory
  fault : Option Fault
  deriving DecidableEq, Repr

/-- The state right after reset (10_state.md R24, 70_reset_and_hazards.md R200) with the parameters at
their defaults: the empty program (log entry 2) and a zeroed data memory of `Config.defaultDmemSize` cells
(log entries 3, 4). `launch` in Machine/Launch.lean is reset for given parameters. -/
def State.reset : State where
  rf := { regs := Vector.replicate 8 0#16, we := false }
  n := false
  z := false
  imem := { size := 0, cells := [], we := false }
  dmem := { size := Config.defaultDmemSize, cells := [], we := false }
  fault := none

end Sys2Proof.Machine
end

