-- ==== Sys2Proof/Machine/Ops.lean ====
section
/-! DEFINITION. The named operations over registers and memories, the condition gate, and raising a
fault. -/

namespace Sys2Proof.Machine

/-- The register that holds the program counter, `PC_INDEX = 7` (00_scope.md R6, 10_state.md R15). -/
def pcIndex : RegIdx := 7

/-! ### The register file (10_state.md R12 to R14) -/

/-- `read(index)`: always succeeds, whatever the latch (R12). -/
def RegFile.read (f : RegFile) (k : RegIdx) : Word :=
  f.regs[k.val]

/-- `write(index, value)`: a silent no-op unless the latch is set (R13). -/
def RegFile.write (f : RegFile) (k : RegIdx) (v : Word) : RegFile :=
  if f.we then { f with regs := f.regs.set k.val v } else f

/-- `set_write_enable(b)` (R13). -/
def RegFile.setWriteEnable (f : RegFile) (b : Bool) : RegFile :=
  { f with we := b }

/-- The bracketed write: raise the latch, write, lower the latch (R14). -/
def RegFile.bracket (f : RegFile) (k : RegIdx) (v : Word) : RegFile :=
  ((f.setWriteEnable true).write k v).setWriteEnable false

/-- `x[k]` (00_scope.md R7). -/
def State.readReg (s : State) (k : RegIdx) : Word :=
  s.rf.read k

/-- `x[k] <- v`, a bracketed register write (00_scope.md R7, 10_state.md R14). -/
def State.writeReg (s : State) (k : RegIdx) (v : Word) : State :=
  { s with rf := s.rf.bracket k v }

/-- The program counter, `x[7]` (10_state.md R15). -/
def State.pc (s : State) : Word :=
  s.readReg pcIndex

/-- The index of the instruction being executed, `x[7] - 1` once the fetch stage has run
(60_exceptions.md R181). -/
def State.pcOld (s : State) : Word :=
  s.pc - 1

/-! ### The memories (20_memory.md R31 to R34) -/

/-- The Word at an index of a cell list; an unlisted index reads as 0x0000. -/
def cellsGet : List Cell → Nat → Word
  | [], _ => 0#16
  | (b, v) :: t, a => if b = a then v else cellsGet t a

/-- The cell list with the Word at index `a` replaced: what lies below, the new cell unless it holds
0x0000, what lies above. -/
def cellsSet (cells : List Cell) (a : Nat) (v : Word) : List Cell :=
  cells.filter (fun c => decide (c.1 < a)) ++ (if v = 0#16 then [] else [(a, v)]) ++
    cells.filter (fun c => decide (a < c.1))

/-- The cell list of `words` placed from index `a` upward. -/
def cellsOfWords : Nat → List Word → List Cell
  | _, [] => []
  | a, v :: t => if v = 0#16 then cellsOfWords (a + 1) t else (a, v) :: cellsOfWords (a + 1) t

/-- The canonical form: indices from `lo` strictly rising and below `size`, no cell equal to 0x0000. -/
def cellsWf (size : Nat) : Nat → List Cell → Bool
  | _, [] => true
  | lo, (a, v) :: t => decide (lo ≤ a) && decide (a < size) && decide (v ≠ 0#16) && cellsWf size (a + 1) t

/-- The memory's cells are in canonical form, so that equal memories are equal data. -/
def Memory.wf (m : Memory) : Bool :=
  cellsWf m.size 0 m.cells

/-- `read(index)`: `none` is the out-of-range fault (R31). -/
def Memory.read (m : Memory) (a : Word) : Option Word :=
  if a.toNat < m.size then some (cellsGet m.cells a.toNat) else none

/-- `write(index, value)`: `none` is the out-of-range fault, tested before the latch; with the latch low a
silent no-op (R31, 92_eei_decisions.md D7). -/
def Memory.write (m : Memory) (a v : Word) : Option Memory :=
  if a.toNat < m.size then
    some (if m.we then { m with cells := cellsSet m.cells a.toNat v } else m)
  else none

/-- `set_write_enable(b)` (R31). -/
def Memory.setWriteEnable (m : Memory) (b : Bool) : Memory :=
  { m with we := b }

/-- `IFetch(a)` (R32); `none` is `IndexOutOfRange(imem, a)`. -/
def State.iFetch (s : State) (a : Word) : Option Word :=
  s.imem.read a

/-- `MemRead(a, 1)` (R33); `none` is `IndexOutOfRange(dmem, a)`. -/
def State.memRead (s : State) (a : Word) : Option Word :=
  s.dmem.read a

/-- `MemWrite(a, 1, v)`: the range test, then the bracketed write (R34); `none` is
`IndexOutOfRange(dmem, a)`. -/
def State.memWrite (s : State) (a v : Word) : Option State :=
  if a.toNat < s.dmem.size then
    ((s.dmem.setWriteEnable true).write a v).map fun m => { s with dmem := m.setWriteEnable false }
  else none

/-! ### Faults and the gate -/

/-- `raise F(info)`: the fault is recorded, every earlier write of the step stays, nothing else changes
(60_exceptions.md R181). There is no handler and no return from a fault (R191). -/
def State.raise (s : State) (f : Fault) : State :=
  { s with fault := some f }

/-- The condition gate: the dispatch stage `k` runs only if the condition holds of the flags the previous
instructions left (40_cycle_and_decode.md R73, R74). -/
def gated (c : Cond) (s : State) (k : State) : State :=
  if condex c s.n s.z then k else s

/-- A record of fields that is no instruction (unreachable for the fields of a Word): the fault the spec
names for it (60_exceptions.md R180, R184, R185), or a refusal where the spec names none. -/
def rejectFields (e : DecodeError) (s : State) : Host.Outcome State Fault Refusal :=
  match e with
  | .invalidCondition code => .next (s.raise (.invalidCondition code))
  | .invalidOpcode op => .next (s.raise (.invalidOpcode op))
  | .registerIndex k => .next (s.raise (.rfIndexOutOfRange k))
  | .fieldOutOfRange v => .refused (.fieldOutOfRange v)

end Sys2Proof.Machine
end

