-- ==== Sys2Proof/Machine/Flags.lean ====
section
/-! DEFINITION. The ALU and the flags (41_alu.md). -/

namespace Sys2Proof.Machine

/-- `ALU16(op, a, b)` without its flag writes (R90 to R98): the result, or `DivideByZero` with the
operation that raised it. -/
def alu16 (op : AluOp) (a b : Word) : Except DivOp Word :=
  match op with
  | .and => .ok (a &&& b)
  | .or => .ok (a ||| b)
  | .add => .ok (a + b)
  | .sub => .ok (a - b)
  | .mul => .ok (a * b)
  | .div => if b = 0#16 then .error .div else .ok (a / b)
  | .rem => if b = 0#16 then .error .rem else .ok (a % b)
  | .xor => .ok (a ^^^ b)

/-- `n_next`: bit 15 of the result (R99). -/
def negFlag (r : Word) : Bool :=
  r.getLsbD 15

/-- `z_next`: the result is 0x0000 (R99). -/
def zeroFlag (r : Word) : Bool :=
  decide (r = 0#16)

/-- The flag write of an ALU invocation that yields `r` (R99). -/
def State.setFlags (s : State) (r : Word) : State :=
  { s with n := negFlag r, z := zeroFlag r }

end Sys2Proof.Machine
end

