-- ==== Sys2Proof/Machine/Operands.lean ====
section
/-! DEFINITION. Operand resolution and the addressing mode (30_encoding.md R54, 40_cycle_and_decode.md
R76, 43_memory_manipulation.md R138, R139). -/

namespace Sys2Proof.Machine

/-- Operand A, `x[rn]` (R76). -/
def operandA (s : State) (rn : RegIdx) : Word :=
  s.readReg rn

/-- Operand B: `x[src2]`, or the literal zero-extended to a Word (R54, R76). -/
def operandB (s : State) : OperandB → Word
  | .reg m => s.readReg m
  | .lit k => k.zeroExtend 16

/-- The ALU operation an address is computed with: opcode `0b010 | operation` (30_encoding.md R56). -/
def addressAluOp : AddrOp → AluOp
  | .add => .add
  | .sub => .sub

/-- The effective address: operand A plus or minus operand B, wrapped to a Word (R138, R139,
20_memory.md R38). It is the ALU's result for `addressAluOp` (`alu16_addressAluOp` in
Laws/Exec.lean). -/
def effectiveAddress (o : AddrOp) (a b : Word) : Word :=
  match o with
  | .add => a + b
  | .sub => a - b

end Sys2Proof.Machine
end

