-- ==== Sys2Proof/Machine/DataProcessing.lean ====
section
/-! DEFINITION. The data-processing instructions (42_data_processing.md R110 to R119). -/

namespace Sys2Proof.Machine

/-- The data-processing path (R118), entered after the fetch stage: the gate, operands A and B, the ALU
with its flag writes, the bracketed write of the result to `x[rd]`. A division by zero is raised before
anything else is written (R115, R116, 60_exceptions.md R183). -/
def dataProcessing (op : AluOp) (c : Cond) (rd rn : RegIdx) (b : OperandB) (s : State) : State :=
  gated c s <|
    match alu16 op (operandA s rn) (operandB s b) with
    | .ok r => (s.setFlags r).writeReg rd r
    | .error d =>
      s.raise (.divideByZero d (operandA s rn) s.pcOld (encodeFields (dpFields op c rd rn b)))

/-- AND (R110), register form: bitwise AND. -/
def execAndReg (c : Cond) (rd rn rm : RegIdx) (s : State) : Host.Outcome State Fault Refusal :=
  .next (dataProcessing .and c rd rn (.reg rm) s)

/-- AND (R110), literal form: bitwise AND. -/
def execAndLit (c : Cond) (rd rn : RegIdx) (k : Lit) (s : State) : Host.Outcome State Fault Refusal :=
  .next (dataProcessing .and c rd rn (.lit k) s)

/-- OR (R111), register form: bitwise OR. -/
def execOrReg (c : Cond) (rd rn rm : RegIdx) (s : State) : Host.Outcome State Fault Refusal :=
  .next (dataProcessing .or c rd rn (.reg rm) s)

/-- OR (R111), literal form: bitwise OR. -/
def execOrLit (c : Cond) (rd rn : RegIdx) (k : Lit) (s : State) : Host.Outcome State Fault Refusal :=
  .next (dataProcessing .or c rd rn (.lit k) s)

/-- ADD (R112), register form: wrapping sum. -/
def execAddReg (c : Cond) (rd rn rm : RegIdx) (s : State) : Host.Outcome State Fault Refusal :=
  .next (dataProcessing .add c rd rn (.reg rm) s)

/-- ADD (R112), literal form: wrapping sum. -/
def execAddLit (c : Cond) (rd rn : RegIdx) (k : Lit) (s : State) : Host.Outcome State Fault Refusal :=
  .next (dataProcessing .add c rd rn (.lit k) s)

/-- SUB (R113), register form: wrapping difference. -/
def execSubReg (c : Cond) (rd rn rm : RegIdx) (s : State) : Host.Outcome State Fault Refusal :=
  .next (dataProcessing .sub c rd rn (.reg rm) s)

/-- SUB (R113), literal form: wrapping difference. -/
def execSubLit (c : Cond) (rd rn : RegIdx) (k : Lit) (s : State) : Host.Outcome State Fault Refusal :=
  .next (dataProcessing .sub c rd rn (.lit k) s)

/-- MUL (R114), register form: low half of the product. -/
def execMulReg (c : Cond) (rd rn rm : RegIdx) (s : State) : Host.Outcome State Fault Refusal :=
  .next (dataProcessing .mul c rd rn (.reg rm) s)

/-- MUL (R114), literal form: low half of the product. -/
def execMulLit (c : Cond) (rd rn : RegIdx) (k : Lit) (s : State) : Host.Outcome State Fault Refusal :=
  .next (dataProcessing .mul c rd rn (.lit k) s)

/-- DIV (R115), register form: unsigned quotient, fault when operand B is 0. -/
def execDivReg (c : Cond) (rd rn rm : RegIdx) (s : State) : Host.Outcome State Fault Refusal :=
  .next (dataProcessing .div c rd rn (.reg rm) s)

/-- DIV (R115), literal form: unsigned quotient, fault when operand B is 0. -/
def execDivLit (c : Cond) (rd rn : RegIdx) (k : Lit) (s : State) : Host.Outcome State Fault Refusal :=
  .next (dataProcessing .div c rd rn (.lit k) s)

/-- REM (R116), register form: unsigned remainder, fault when operand B is 0. -/
def execRemReg (c : Cond) (rd rn rm : RegIdx) (s : State) : Host.Outcome State Fault Refusal :=
  .next (dataProcessing .rem c rd rn (.reg rm) s)

/-- REM (R116), literal form: unsigned remainder, fault when operand B is 0. -/
def execRemLit (c : Cond) (rd rn : RegIdx) (k : Lit) (s : State) : Host.Outcome State Fault Refusal :=
  .next (dataProcessing .rem c rd rn (.lit k) s)

/-- XOR (R117), register form: bitwise exclusive OR. -/
def execXorReg (c : Cond) (rd rn rm : RegIdx) (s : State) : Host.Outcome State Fault Refusal :=
  .next (dataProcessing .xor c rd rn (.reg rm) s)

/-- XOR (R117), literal form: bitwise exclusive OR. -/
def execXorLit (c : Cond) (rd rn : RegIdx) (k : Lit) (s : State) : Host.Outcome State Fault Refusal :=
  .next (dataProcessing .xor c rd rn (.lit k) s)

end Sys2Proof.Machine
end

