-- ==== Sys2Proof/Machine/MemoryManipulation.lean ====
section
/-! DEFINITION. The memory-manipulation instructions, the load/store execution unit
(43_memory_manipulation.md R130 to R141). -/

namespace Sys2Proof.Machine

/-- What precedes the access (R138): the flags from the address, then the address write-back to `x[rn]`
if the instruction asks for it. -/
def addressStage (o : MemOp) (rn : RegIdx) (addr : Word) (s : State) : State :=
  if o.writeBack then (s.setFlags addr).writeReg rn addr else s.setFlags addr

/-- The access (R138), on the state the address stage left: a load writes the Word read to `x[rd]`; a
store reads `x[rd]` (after the write-back) and writes it; an address out of range raises `f`
(60_exceptions.md R186). -/
def accessStage (o : MemOp) (rd : RegIdx) (addr : Word) (f : Fault) (s : State) : State :=
  if o.write then
    match s.memWrite addr (s.readReg rd) with
    | some t => t
    | none => s.raise f
  else
    match s.memRead addr with
    | some v => s.writeReg rd v
    | none => s.raise f

/-- The memory-manipulation path (R138), entered after the fetch stage: the gate, operands A and B, the
effective address, the address stage, the access. -/
def memoryManipulation (o : MemOp) (c : Cond) (rd rn : RegIdx) (b : OperandB) (s : State) : State :=
  gated c s <|
    let addr := effectiveAddress o.operation (operandA s rn) (operandB s b)
    accessStage o rd addr (.dmemIndexOutOfRange addr s.pcOld (encodeFields (mmFields o c rd rn b)))
      (addressStage o rn addr s)

/-- LDADD (R130), register form: load, address by add, no write-back. -/
def execLdaddReg (c : Cond) (rd rn rm : RegIdx) (s : State) : Host.Outcome State Fault Refusal :=
  .next (memoryManipulation ⟨false, false, .add⟩ c rd rn (.reg rm) s)

/-- LDADD (R130), literal form: load, address by add, no write-back. -/
def execLdaddLit (c : Cond) (rd rn : RegIdx) (k : Lit) (s : State) : Host.Outcome State Fault Refusal :=
  .next (memoryManipulation ⟨false, false, .add⟩ c rd rn (.lit k) s)

/-- LDSUB (R131), register form: load, address by subtract, no write-back. -/
def execLdsubReg (c : Cond) (rd rn rm : RegIdx) (s : State) : Host.Outcome State Fault Refusal :=
  .next (memoryManipulation ⟨false, false, .sub⟩ c rd rn (.reg rm) s)

/-- LDSUB (R131), literal form: load, address by subtract, no write-back. -/
def execLdsubLit (c : Cond) (rd rn : RegIdx) (k : Lit) (s : State) : Host.Outcome State Fault Refusal :=
  .next (memoryManipulation ⟨false, false, .sub⟩ c rd rn (.lit k) s)

/-- LDADDW (R132), register form: load, address by add, with write-back. -/
def execLdaddwReg (c : Cond) (rd rn rm : RegIdx) (s : State) : Host.Outcome State Fault Refusal :=
  .next (memoryManipulation ⟨false, true, .add⟩ c rd rn (.reg rm) s)

/-- LDADDW (R132), literal form: load, address by add, with write-back. -/
def execLdaddwLit (c : Cond) (rd rn : RegIdx) (k : Lit) (s : State) : Host.Outcome State Fault Refusal :=
  .next (memoryManipulation ⟨false, true, .add⟩ c rd rn (.lit k) s)

/-- LDSUBW (R133), register form: load, address by subtract, with write-back. -/
def execLdsubwReg (c : Cond) (rd rn rm : RegIdx) (s : State) : Host.Outcome State Fault Refusal :=
  .next (memoryManipulation ⟨false, true, .sub⟩ c rd rn (.reg rm) s)

/-- LDSUBW (R133), literal form: load, address by subtract, with write-back. -/
def execLdsubwLit (c : Cond) (rd rn : RegIdx) (k : Lit) (s : State) : Host.Outcome State Fault Refusal :=
  .next (memoryManipulation ⟨false, true, .sub⟩ c rd rn (.lit k) s)

/-- STADD (R134), register form: store, address by add, no write-back. -/
def execStaddReg (c : Cond) (rd rn rm : RegIdx) (s : State) : Host.Outcome State Fault Refusal :=
  .next (memoryManipulation ⟨true, false, .add⟩ c rd rn (.reg rm) s)

/-- STADD (R134), literal form: store, address by add, no write-back. -/
def execStaddLit (c : Cond) (rd rn : RegIdx) (k : Lit) (s : State) : Host.Outcome State Fault Refusal :=
  .next (memoryManipulation ⟨true, false, .add⟩ c rd rn (.lit k) s)

/-- STSUB (R135), register form: store, address by subtract, no write-back. -/
def execStsubReg (c : Cond) (rd rn rm : RegIdx) (s : State) : Host.Outcome State Fault Refusal :=
  .next (memoryManipulation ⟨true, false, .sub⟩ c rd rn (.reg rm) s)

/-- STSUB (R135), literal form: store, address by subtract, no write-back. -/
def execStsubLit (c : Cond) (rd rn : RegIdx) (k : Lit) (s : State) : Host.Outcome State Fault Refusal :=
  .next (memoryManipulation ⟨true, false, .sub⟩ c rd rn (.lit k) s)

/-- STADDW (R136), register form: store, address by add, with write-back. -/
def execStaddwReg (c : Cond) (rd rn rm : RegIdx) (s : State) : Host.Outcome State Fault Refusal :=
  .next (memoryManipulation ⟨true, true, .add⟩ c rd rn (.reg rm) s)

/-- STADDW (R136), literal form: store, address by add, with write-back. -/
def execStaddwLit (c : Cond) (rd rn : RegIdx) (k : Lit) (s : State) : Host.Outcome State Fault Refusal :=
  .next (memoryManipulation ⟨true, true, .add⟩ c rd rn (.lit k) s)

/-- STSUBW (R137), register form: store, address by subtract, with write-back. -/
def execStsubwReg (c : Cond) (rd rn rm : RegIdx) (s : State) : Host.Outcome State Fault Refusal :=
  .next (memoryManipulation ⟨true, true, .sub⟩ c rd rn (.reg rm) s)

/-- STSUBW (R137), literal form: store, address by subtract, with write-back. -/
def execStsubwLit (c : Cond) (rd rn : RegIdx) (k : Lit) (s : State) : Host.Outcome State Fault Refusal :=
  .next (memoryManipulation ⟨true, true, .sub⟩ c rd rn (.lit k) s)

end Sys2Proof.Machine
end

