-- ==== Sys2Proof/Machine/Dispatch.lean ====
section
/-! DEFINITION. The dispatch stage (40_cycle_and_decode.md R77): one arm per instruction. -/

namespace Sys2Proof.Machine

def exec (i : Instr) (s : State) : Host.Outcome State Fault Refusal :=
  match i with
  | .andReg c rd rn rm => Sys2Proof.Machine.execAndReg c rd rn rm s
  | .andLit c rd rn k => Sys2Proof.Machine.execAndLit c rd rn k s
  | .orReg c rd rn rm => Sys2Proof.Machine.execOrReg c rd rn rm s
  | .orLit c rd rn k => Sys2Proof.Machine.execOrLit c rd rn k s
  | .addReg c rd rn rm => Sys2Proof.Machine.execAddReg c rd rn rm s
  | .addLit c rd rn k => Sys2Proof.Machine.execAddLit c rd rn k s
  | .subReg c rd rn rm => Sys2Proof.Machine.execSubReg c rd rn rm s
  | .subLit c rd rn k => Sys2Proof.Machine.execSubLit c rd rn k s
  | .mulReg c rd rn rm => Sys2Proof.Machine.execMulReg c rd rn rm s
  | .mulLit c rd rn k => Sys2Proof.Machine.execMulLit c rd rn k s
  | .divReg c rd rn rm => Sys2Proof.Machine.execDivReg c rd rn rm s
  | .divLit c rd rn k => Sys2Proof.Machine.execDivLit c rd rn k s
  | .remReg c rd rn rm => Sys2Proof.Machine.execRemReg c rd rn rm s
  | .remLit c rd rn k => Sys2Proof.Machine.execRemLit c rd rn k s
  | .xorReg c rd rn rm => Sys2Proof.Machine.execXorReg c rd rn rm s
  | .xorLit c rd rn k => Sys2Proof.Machine.execXorLit c rd rn k s
  | .ldaddReg c rd rn rm => Sys2Proof.Machine.execLdaddReg c rd rn rm s
  | .ldaddLit c rd rn k => Sys2Proof.Machine.execLdaddLit c rd rn k s
  | .ldsubReg c rd rn rm => Sys2Proof.Machine.execLdsubReg c rd rn rm s
  | .ldsubLit c rd rn k => Sys2Proof.Machine.execLdsubLit c rd rn k s
  | .ldaddwReg c rd rn rm => Sys2Proof.Machine.execLdaddwReg c rd rn rm s
  | .ldaddwLit c rd rn k => Sys2Proof.Machine.execLdaddwLit c rd rn k s
  | .ldsubwReg c rd rn rm => Sys2Proof.Machine.execLdsubwReg c rd rn rm s
  | .ldsubwLit c rd rn k => Sys2Proof.Machine.execLdsubwLit c rd rn k s
  | .staddReg c rd rn rm => Sys2Proof.Machine.execStaddReg c rd rn rm s
  | .staddLit c rd rn k => Sys2Proof.Machine.execStaddLit c rd rn k s
  | .stsubReg c rd rn rm => Sys2Proof.Machine.execStsubReg c rd rn rm s
  | .stsubLit c rd rn k => Sys2Proof.Machine.execStsubLit c rd rn k s
  | .staddwReg c rd rn rm => Sys2Proof.Machine.execStaddwReg c rd rn rm s
  | .staddwLit c rd rn k => Sys2Proof.Machine.execStaddwLit c rd rn k s
  | .stsubwReg c rd rn rm => Sys2Proof.Machine.execStsubwReg c rd rn rm s
  | .stsubwLit c rd rn k => Sys2Proof.Machine.execStsubwLit c rd rn k s

end Sys2Proof.Machine
end

