-- ==== Sys2Proof/Machine/Fetch.lean ====
section
/-! DEFINITION. The fetch and fetch-instruction stages (40_cycle_and_decode.md R71, R72). -/

namespace Sys2Proof.Machine

/-- The fetch stage: `x[7] <- x[7] + 1`, a bracketed write outside the ALU, flags untouched (R71,
10_state.md R16). -/
def State.advancePc (s : State) : State :=
  s.writeReg pcIndex (s.pc + 1)

/-- Both stages: the instruction word at the old program counter and the state after the increment, or
the state left by `IndexOutOfRange(imem, pc_old)`, in which only `x[7]` has changed (R72,
60_exceptions.md R186). -/
def State.fetch (s : State) : Except State (Word × State) :=
  match s.advancePc.iFetch s.pc with
  | some w => .ok (w, s.advancePc)
  | none => .error (s.advancePc.raise (.imemIndexOutOfRange s.pc))

/-- The instruction memory with the word placed at index `a`, enlarged to reach it (the environment's
load, 70_reset_and_hazards.md R202; log entry 15). -/
def Memory.place (m : Memory) (a w : Word) : Memory :=
  { m with size := max m.size (a.toNat + 1), cells := cellsSet m.cells a.toNat w }

end Sys2Proof.Machine
end

