-- ==== Sys2Proof/Machine/Step.lean ====
section
/-! DEFINITION. One step of the core (40_cycle_and_decode.md R70). -/

namespace Sys2Proof.Machine

/-- One step, the source's `cycle()` (R70): a faulted core takes none and answers its fault (R82);
otherwise fetch, decode, and the instruction with its condition gate. A step that raises a fault answers
the state left, with the fault recorded (60_exceptions.md R181; log entry 6). -/
def step (s : State) : Host.Outcome State Fault Refusal :=
  match s.fault with
  | some f => .fault f
  | none =>
    match s.fetch with
    | .error t => .next t
    | .ok (w, t) =>
      match decode w with
      | .ok i => exec i t
      | .error e => rejectFields e t

/-- `s` with an instruction word, its bits numbered as opcode_table.json numbers them, placed in the
instruction memory where `step` fetches next. It stands for the environment's load of a program
(70_reset_and_hazards.md R202; log entries 2, 15). -/
def State.withFetchWord (s : State) (nbits w : Nat) : State :=
  { s with imem := s.imem.place s.pc (BitVec.ofNat 16 (w % 2 ^ nbits)) }

end Sys2Proof.Machine
end

