-- ==== Sys2Proof/Machine/Launch.lean ====
section
/-! DEFINITION. Reset for given parameters, and the choice of variant (70_reset_and_hazards.md R200, R202;
00_scope.md R2). -/

namespace Sys2Proof.Machine

/-- A memory of `size` cells that holds `words` from index 0 upward and 0x0000 beyond them, latch low. -/
def Memory.ofWords (size : Nat) (words : List Word) : Memory :=
  { size := size, cells := cellsOfWords 0 words, we := false }

/-- The state after reset with the parameters of R6 supplied: `imem = PROGRAM`, `dmem = DMEM_INIT`,
everything else as 10_state.md R24 gives it. -/
def launch (p : Params) : State :=
  { State.reset with
    imem := Memory.ofWords p.program.length p.program
    dmem := Memory.ofWords p.dmemSize p.dmemInit }

/-- The two architectural variants of the source (R2). -/
inductive Variant where
  | word16 | word32
  deriving DecidableEq, Repr

/-- Launch of a variant: the 32-bit one is refused, naming the missing encoding (R2, 45_variant32.md R165). -/
def launchVariant (v : Variant) (p : Params) : Host.Outcome State Fault Refusal :=
  match v with
  | .word16 => .next (launch p)
  | .word32 => .refused .variant32HasNoEncoding

end Sys2Proof.Machine
end

