-- ==== Sys2Proof/Machine/Loader.lean ====
section
/-! DEFINITION. The program-image text format (30_encoding.md R62): what words the external loader makes
of the lines of a file. Files and diagnostics are outside the core (00_scope.md R5). -/

namespace Sys2Proof.Machine

/-- A line without its inline `//...` suffix; a full-line comment leaves at most white space. -/
def stripComment : List Char → List Char
  | [] => []
  | c :: t => if c = '/' ∧ t.head? = some '/' then [] else c :: stripComment t

/-- What remains to be parsed: white space and underscores removed. -/
def lineToken (line : List Char) : List Char :=
  (stripComment line).filter fun c => !c.isWhitespace && c != '_'

/-- The value of a base-2 numeral, most significant digit first; `none` for any other character. -/
def binaryValue : Nat → List Char → Option Nat
  | acc, [] => some acc
  | acc, c :: t =>
    if c = '0' then binaryValue (2 * acc) t
    else if c = '1' then binaryValue (2 * acc + 1) t
    else none

/-- The word of a line; `none` for a line that takes no cell: empty, a comment, or one that fails to parse
as a base-2 integer that fits 16 bits (R62; log entry 14). -/
def parseLine (line : List Char) : Option Word :=
  if lineToken line = [] then none
  else
    match binaryValue 0 (lineToken line) with
    | some v => if v < 2 ^ 16 then some (BitVec.ofNat 16 v) else none
    | none => none

/-- `PROGRAM`: the words of the lines that parse, in file order (R62). A missing file is the empty list of
lines (60_exceptions.md R190). -/
def parseImage (lines : List (List Char)) : List Word :=
  lines.filterMap parseLine

end Sys2Proof.Machine
end

