-- ==== Sys2Proof/Machine/Variant32.lean ====
section
/-! DEFINITION. What the source gives of the 32-bit variant as a function: its ALU (45_variant32.md R161,
R162). The variant as a machine is refused (`launchVariant`). -/

namespace Sys2Proof.Machine

/-- `ALU32(op, a, b)` (R161). It writes no flag. A shift by 32 or more is refused, `SHIFT32_POLICY` being
open (R162; log entry 11); shift-right fills with zeros (R162). -/
def alu32 (op : BitVec 3) (a b : BitVec 32) : Except Refusal (BitVec 32) :=
  match op.toNat with
  | 0 => .ok (a + b)
  | 1 => .ok (a - b)
  | 2 => .ok (a &&& b)
  | 3 => .ok (a ||| b)
  | 4 => .ok (a ^^^ b)
  | 5 => if b.toNat < 32 then .ok (a <<< b.toNat) else .error (.shift32AmountOpen b)
  | 6 => if b.toNat < 32 then .ok (a >>> b.toNat) else .error (.shift32AmountOpen b)
  | _ => .ok (if a.toNat < b.toNat then 1 else 0)

end Sys2Proof.Machine
end

