-- ==== Sys2Proof/Machine/Run.lean ====
section
/-! DEFINITION. A run under the environment's step count (70_reset_and_hazards.md R205, R206). -/

namespace Sys2Proof.Machine

/-- The state in which a run of at most `cycles` steps ends: after the last step, or the state the step
that faulted left (R206). -/
def run : Nat → State → State
  | 0, s => s
  | cycles + 1, s =>
    match step s with
    | .next t => run cycles t
    | .fault _ => s
    | .refused _ => s

/-- The number of steps the source's driver applies: the instruction-store length (R205). -/
def driverCycles (s : State) : Nat :=
  s.imem.size

end Sys2Proof.Machine
end

