-- ==== Sys2Proof/Safety.lean ====
section
/-! DEFINITION. The invariant of the core between steps, and what counts as a safe run. -/

namespace Sys2Proof

open Sys2Proof.Machine

/-- What holds between steps: the three latches are low (10_state.md R22), the flag pair is not `(1, 1)`
(R18), each memory is in canonical form, and its size is one it can have (00_scope.md R6). -/
structure CoreInv (s : State) : Prop where
  rf_latch_low   : s.rf.we = false
  imem_latch_low : s.imem.we = false
  dmem_latch_low : s.dmem.we = false
  flags_not_both : ¬(s.n = true ∧ s.z = true)
  imem_wf        : s.imem.wf = true
  dmem_wf        : s.dmem.wf = true
  imem_size      : s.imem.size ≤ Config.maxCells
  dmem_size      : 1 ≤ s.dmem.size ∧ s.dmem.size ≤ Config.maxCells

/-- A run of `cycles` steps from `s` ends without a fault (70_reset_and_hazards.md R206, case (a)). -/
def SafeRun (cycles : Nat) (s : State) : Prop :=
  (run cycles s).fault = none

end Sys2Proof
end

