-- ==== Sys2Proof/Certificates/Slice0/Obligations.lean ====
section
/-! DEFINITION. The statements about the core. In a statement about `exec`, the state `s` is the one the
fetch stage left: `x[7]` already holds `p + 1`. A statement about `step` starts from the state between
steps. A fault that a step raises is a next state that records it (60_exceptions.md R181, log entry 6). -/

namespace Sys2Proof.Claims

open Sys2Proof.Machine

/-- Every register but `k` reads as before. -/
def OthersKept (k : RegIdx) (s t : State) : Prop :=
  ∀ j : RegIdx, j ≠ k → t.readReg j = s.readReg j

/-- Every cell of the data memory reads as before, its size and latch are as before. -/
def DataKept (s t : State) : Prop :=
  (∀ a : Word, t.memRead a = s.memRead a) ∧ t.dmem.size = s.dmem.size ∧ t.dmem.we = s.dmem.we

/-- The instruction memory (cells, size, latch) and the recorded fault are as before. -/
def ProgramAndFaultKept (s t : State) : Prop :=
  t.imem = s.imem ∧ t.fault = s.fault

/-- Both flags are as before. -/
def FlagsKept (s t : State) : Prop :=
  t.n = s.n ∧ t.z = s.z

/-- Both flags describe `r`: `N` is bit 15, `Z` is set exactly if `r` is 0x0000. -/
def FlagsOf (r : Word) (t : State) : Prop :=
  (t.n = true ↔ 2 ^ 15 ≤ r.toNat) ∧ (t.z = true ↔ r.toNat = 0)

/-- The instruction runs and writes `r` to `x[rd]`, the flags of `r`, and nothing else; the register
latch ends low. -/
def WritesResult (i : Instr) (s : State) (rd : RegIdx) (r : Word) : Prop :=
  ∃ t, exec i s = .next t ∧ t.readReg rd = r ∧ FlagsOf r t ∧ OthersKept rd s t ∧ DataKept s t ∧
    ProgramAndFaultKept s t ∧ t.rf.we = false

/-- A load runs: `x[rd]` is the Word at `addr`, `x[rn]` is `addr` if the form writes back and `rn` is not
`rd`, the flags are those of `addr`, nothing else changes. -/
def Loads (i : Instr) (s : State) (writeBack : Bool) (rd rn : RegIdx) (addr : Word) : Prop :=
  ∃ t, exec i s = .next t ∧ s.memRead addr = some (t.readReg rd) ∧
    (writeBack = true → rn ≠ rd → t.readReg rn = addr) ∧
    (∀ j : RegIdx, j ≠ rd → (writeBack = true → j ≠ rn) → t.readReg j = s.readReg j) ∧
    FlagsOf addr t ∧ DataKept s t ∧ ProgramAndFaultKept s t ∧ t.rf.we = false

/-- A store runs: the cell at `addr` holds `x[rd]` as it stands after the write-back, every other cell
reads as before, `x[rn]` is `addr` if the form writes back, the flags are those of `addr`, nothing else
changes; the data latch ends low, the register latch low if the form writes back and else as before. -/
def Stores (i : Instr) (s : State) (writeBack : Bool) (rd rn : RegIdx) (addr : Word) : Prop :=
  ∃ t, exec i s = .next t ∧
    t.memRead addr = some (if writeBack = true ∧ rd = rn then addr else s.readReg rd) ∧
    (∀ a : Word, a ≠ addr → t.memRead a = s.memRead a) ∧
    (writeBack = true → t.readReg rn = addr) ∧
    (∀ j : RegIdx, (writeBack = true → j ≠ rn) → t.readReg j = s.readReg j) ∧
    FlagsOf addr t ∧ t.dmem.size = s.dmem.size ∧ t.dmem.we = false ∧ t.rf.we = (!writeBack && s.rf.we) ∧
    ProgramAndFaultKept s t

/-- An access out of range: the fault is recorded with the address, the index and the word of the
instruction; the flags and the write-back are done; `x[rd]` (unless it is the register written back) and
the data memory are as before. -/
def AccessFaults (i : Instr) (s : State) (writeBack : Bool) (rn : RegIdx) (addr : Word) : Prop :=
  ∃ t, exec i s = .next t ∧ t.fault = some (.dmemIndexOutOfRange addr (s.readReg 7 - 1) (encode i)) ∧
    FlagsOf addr t ∧ (writeBack = true → t.readReg rn = addr) ∧
    (∀ j : RegIdx, (writeBack = true → j ≠ rn) → t.readReg j = s.readReg j) ∧
    t.rf.we = (!writeBack && s.rf.we) ∧ DataKept s t ∧ t.imem = s.imem

/-- A division by zero: the fault is recorded with the operation, the dividend, the index and the word of
the instruction, and nothing else changes. -/
def DivisionFaults (i : Instr) (s : State) (d : DivOp) (rn : RegIdx) : Prop :=
  ∃ t, exec i s = .next t ∧
    t.fault = some (.divideByZero d (s.readReg rn) (s.readReg 7 - 1) (encode i)) ∧
    (∀ j : RegIdx, t.readReg j = s.readReg j) ∧ t.rf.we = s.rf.we ∧ FlagsKept s t ∧ DataKept s t ∧ t.imem = s.imem

/-- The effective address of a form with base `rn` and operand B `b`. -/
def ea (o : AddrOp) (s : State) (rn : RegIdx) (b : OperandB) : Word :=
  effectiveAddress o (operandA s rn) (operandB s b)

/-- The Word an executed instruction sets its flags from: the ALU result of a data-processing instruction, the
effective address of a memory-manipulation instruction (41_alu.md R99, 43_memory_manipulation.md R140). -/
def FlagSource (i : Instr) (s : State) (r : Word) : Prop :=
  (∃ op c rd rn b, i = dpInstr op c rd rn b ∧ alu16 op (operandA s rn) (operandB s b) = .ok r) ∨
  (∃ o c rd rn b, i = mmInstr o c rd rn b ∧ r = ea o.operation s rn b)

/-- The step from `s` stores `v` at index `a` of the data memory: the core is unfaulted, the word it fetches is a
store form whose condition passes, and, on the state the fetch stage leaves, its effective address is `a`, below
`DMEM_SIZE`, and `v` is `x[rd]`, or the new base where the form writes back and `rd` is the base. -/
def StoresWord (s : State) (a v : Word) : Prop :=
  s.fault = none ∧ a.toNat < s.dmem.size ∧ ∃ w o c rd rn b, s.iFetch s.pc = some w ∧
    decode w = .ok (mmInstr o c rd rn b) ∧ o.write = true ∧ condex c s.n s.z = true ∧
    ea o.operation s.advancePc rn b = a ∧
    v = if o.writeBack = true ∧ rd = rn then a else s.advancePc.readReg rd

/-- The step from `s` is a load into `x[rd]` from index `a`: the core is unfaulted, the word it fetches is a load
form whose condition passes, and its effective address on the state the fetch stage leaves is `a`. -/
def LoadsWord (s : State) (a : Word) (rd : RegIdx) : Prop :=
  s.fault = none ∧ ∃ w o c rn b, s.iFetch s.pc = some w ∧ decode w = .ok (mmInstr o c rd rn b) ∧
    o.write = false ∧ condex c s.n s.z = true ∧ ea o.operation s.advancePc rn b = a

/-- The instruction is one of the four that can divide by zero, and its divisor is zero. -/
def DividesByZero (i : Instr) (s : State) : Prop :=
  match i with
  | .divReg _ _ _ m => s.readReg m = 0
  | .divLit _ _ _ k => k = 0
  | .remReg _ _ _ m => s.readReg m = 0
  | .remLit _ _ _ k => k = 0
  | _ => False

/-- The instruction is one of the eight store forms. -/
def IsStore (i : Instr) : Prop :=
  match i with
  | .staddReg .. | .staddLit .. | .stsubReg .. | .stsubLit .. => True
  | .staddwReg .. | .staddwLit .. | .stsubwReg .. | .stsubwLit .. => True
  | _ => False

/-- The instruction can write `x[7]`: a data-processing result or a load with `rd = 7`, or an address
write-back with `rn = 7` (44_control_transfer.md R150). -/
def CanWritePc (i : Instr) : Prop :=
  match i with
  | .staddReg .. | .staddLit .. | .stsubReg .. | .stsubLit .. => False
  | .staddwReg _ _ rn _ | .staddwLit _ _ rn _ | .stsubwReg _ _ rn _ | .stsubwLit _ _ rn _ => rn = 7
  | .ldaddwReg _ rd rn _ | .ldaddwLit _ rd rn _ | .ldsubwReg _ rd rn _ | .ldsubwLit _ rd rn _ => rd = 7 ∨ rn = 7
  | .ldaddReg _ rd _ _ | .ldaddLit _ rd _ _ | .ldsubReg _ rd _ _ | .ldsubLit _ rd _ _ => rd = 7
  | .andReg _ rd _ _ | .andLit _ rd _ _ | .orReg _ rd _ _ | .orLit _ rd _ _ => rd = 7
  | .addReg _ rd _ _ | .addLit _ rd _ _ | .subReg _ rd _ _ | .subLit _ rd _ _ => rd = 7
  | .mulReg _ rd _ _ | .mulLit _ rd _ _ | .divReg _ rd _ _ | .divLit _ rd _ _ => rd = 7
  | .remReg _ rd _ _ | .remLit _ rd _ _ | .xorReg _ rd _ _ | .xorLit _ rd _ _ => rd = 7

/-- The state with the three latches lowered: two states with the same image differ in latches only. -/
def latchesLowered (s : State) : State :=
  { s with rf := { s.rf with we := false }, imem := { s.imem with we := false },
           dmem := { s.dmem with we := false } }

/-- The pattern `cc oooo nnn ddd i sss` of opcode_table.json, bits 15 down to 0. -/
def rowWord (c : BitVec 2) (memOpcode : BitVec 4) (rn rd : RegIdx) (i : BitVec 1) (src2 : BitVec 3) : Word :=
  c ++ memOpcode ++ (BitVec.ofFin rn : BitVec 3) ++ (BitVec.ofFin rd : BitVec 3) ++ i ++ src2

/-- The condition bits of R57. -/
def condBits : Cond → BitVec 2
  | .al => 0b00#2
  | .z => 0b01#2
  | .n => 0b10#2
  | .p => 0b11#2

/-- Both rows of an operation: `register` for `i = 0`, `literal` for `i = 1`. -/
def RowsDecode (memOpcode : BitVec 4) (register : Cond → RegIdx → RegIdx → RegIdx → Instr)
    (literal : Cond → RegIdx → RegIdx → Lit → Instr) : Prop :=
  ∀ (c : Cond) (rd rn : RegIdx),
    (∀ m : RegIdx, decode (rowWord (condBits c) memOpcode rn rd 0 (BitVec.ofFin m)) = .ok (register c rd rn m)) ∧
    (∀ k : Lit, decode (rowWord (condBits c) memOpcode rn rd 1 k) = .ok (literal c rd rn k))

/-- The sixteen base-2 digits of a word, most significant first. -/
def digits (w : Word) : List Char :=
  (List.range 16).map fun k => if w.getLsbD (15 - k) then '1' else '0'

end Sys2Proof.Claims

open Sys2Proof Sys2Proof.Machine Sys2Proof.Claims

/-! ### Encoding -/

/-- Eight words the spec prints (0x00B2, 0x081D, 0x14DA, 0x5C9F, 0x214B, 0x2D49, 0x3138, 0xFFFF) decode to the
instructions the spec says they are.
(42_data_processing.md section 2; 43_memory_manipulation.md sections 2 and 3.) -/
def Obligations.SpecWordsDecode : Prop :=
  decode 0x00B2 = .ok (.andReg .al 3 1 2) ∧ decode 0x081D = .ok (.addLit .al 1 0 5) ∧
  decode 0x14DA = .ok (.divLit .al 5 1 2) ∧ decode 0x5C9F = .ok (.xorLit .z 1 1 7) ∧
  decode 0x214B = .ok (.ldaddLit .al 4 2 3) ∧ decode 0x2D49 = .ok (.ldsubwLit .al 4 2 1) ∧
  decode 0x3138 = .ok (.staddLit .al 3 2 0) ∧ decode 0xFFFF = .ok (.stsubwLit .p 7 7 7)

/-- Each extracted field is the number made of its bits: cond = w[15:14], mem = w[13], opcode = w[12:10], rn =
w[9:7], rd = w[6:4], i = w[3], src2 = w[2:0], where w[hi:lo] is (w >> lo) mod 2^(hi-lo+1).
(R52.) -/
def Obligations.FieldExtraction : Prop :=
  ∀ w : Word, (extractFields w).cond = w.toNat / 2 ^ 14 % 4 ∧ (extractFields w).mem = w.toNat / 2 ^ 13 % 2 ∧
    (extractFields w).opcode = w.toNat / 2 ^ 10 % 8 ∧ (extractFields w).rn = w.toNat / 2 ^ 7 % 8 ∧
    (extractFields w).rd = w.toNat / 2 ^ 4 % 8 ∧ (extractFields w).i = w.toNat / 2 ^ 3 % 2 ∧
    (extractFields w).src2 = w.toNat % 8

/-- For fields each in the range of its width, the encoded word is cond<<14 | mem<<13 | opcode<<10 | rn<<7 |
rd<<4 | i<<3 | src2 and extraction gives the fields back; for every Word, the extracted fields are in
range and encode to the Word. (The converse is marked by the spec as derived from the fields tiling the
Word; the layout is its decision D2, log entry 13.)
(30_encoding.md section 1; 95_test_vectors.md section 1.6.) -/
def Obligations.FieldsTileTheWord : Prop :=
  (∀ f : Fields, f.wf = true →
    encodeFields f = BitVec.ofNat 16 f.cond <<< 14 ||| BitVec.ofNat 16 f.mem <<< 13 |||
      BitVec.ofNat 16 f.opcode <<< 10 ||| BitVec.ofNat 16 f.rn <<< 7 ||| BitVec.ofNat 16 f.rd <<< 4 |||
      BitVec.ofNat 16 f.i <<< 3 ||| BitVec.ofNat 16 f.src2 ∧
    extractFields (encodeFields f) = f) ∧
  (∀ w : Word, (extractFields w).wf = true ∧ encodeFields (extractFields w) = w)

/-- For every instruction of the 32 rows, with every operand at every value its field admits, decode (encode
i) is i.
(30_encoding.md section 1; 95_test_vectors.md section 1.6.) -/
def Obligations.DecodeInvertsEncode : Prop :=
  ∀ i : Instr, decode (encode i) = .ok i

/-- No Word is rejected, and no bit of a Word is ignored: each of the 2^16 Words decodes to an instruction
that encodes back to it. The all-zero word is AND R0, R0, R0, which leaves every register as it is and
sets the flags from R0; the all-ones word is STSUBW.P R7, [R7, #7]. (The two named words are marked by the
spec as derived.)
(30_encoding.md section 4.) -/
def Obligations.EveryWordIsOneInstruction : Prop :=
  (∀ w : Word, ∃ i, decode w = .ok i ∧ encode i = w) ∧
  decode 0x0000 = .ok (.andReg .al 0 0 0) ∧
  (∀ s, ∃ t, exec (.andReg .al 0 0 0) s = .next t ∧ (∀ k, t.readReg k = s.readReg k) ∧ FlagsOf (s.readReg 0) t) ∧
  decode 0xFFFF = .ok (.stsubwLit .p 7 7 7)

/-- Code 00 is always, 01 executes iff Z = 1, 10 iff N = 1, 11 iff N = 0 and Z = 0, on all four flag pairs;
the four codes are all defined.
(R57.) -/
def Obligations.ConditionTable : Prop :=
  condOfCode 0b00 = .ok .al ∧ condOfCode 0b01 = .ok .z ∧ condOfCode 0b10 = .ok .n ∧ condOfCode 0b11 = .ok .p ∧
  ∀ n z : Bool, condex .al n z = true ∧ (condex .z n z = true ↔ z = true) ∧ (condex .n n z = true ↔ n = true) ∧
    (condex .p n z = true ↔ n = false ∧ z = false)

/-- For every Word and flag pair the gated decoder answers: the instruction with exactly the word's seven
fields when its condition holds of the flags, no instruction when it does not.
(R75.) -/
def Obligations.GatedDecoderIsTotal : Prop :=
  ∀ (w : Word) (n z : Bool), ∃ i, i.fields = extractFields w ∧
    condOfCode (w.toNat / 2 ^ 14) = .ok i.cond ∧
    decodeGated w n z = .ok (if condex i.cond n z = true then some i else none)

/-- In an unfaulted state with a fetched word w, if the gated decoder of w and the flags yields no instruction
the step only advances the program counter; if it yields i, the step is exec of i after the advance.
(40_cycle_and_decode.md sections 1 and 3.) -/
def Obligations.GatedDecoderDecidesTheStep : Prop :=
  ∀ (s : State) (w : Word), s.fault = none → s.iFetch s.pc = some w →
    (decodeGated w s.n s.z = .ok none → step s = .next s.advancePc) ∧
    (∀ i, decodeGated w s.n s.z = .ok (some i) → step s = exec i s.advancePc)

/-! ### The ALU -/

/-- For all operands, AND, OR and XOR yield a result whose bit k is the conjunction, the disjunction, the
difference of the operands' bits k.
(R91; R92; R98.) -/
def Obligations.AluBitwiseOperations : Prop :=
  ∀ a b : Word,
    (∃ r, alu16 .and a b = .ok r ∧ ∀ k < 16, r.getLsbD k = (a.getLsbD k && b.getLsbD k)) ∧
    (∃ r, alu16 .or a b = .ok r ∧ ∀ k < 16, r.getLsbD k = (a.getLsbD k || b.getLsbD k)) ∧
    (∃ r, alu16 .xor a b = .ok r ∧ ∀ k < 16, r.getLsbD k = (a.getLsbD k != b.getLsbD k)) ∧
    alu16 .and 0xF0F0 0x3C3C = .ok 0x3030 ∧ alu16 .or 0xF0F0 0x3C3C = .ok 0xFCFC ∧
    alu16 .xor 0xF0F0 0x3C3C = .ok 0xCCCC

/-- For all operands, ADD, SUB and MUL yield a result: the sum, the difference (2^16 + a - b when b > a) and
the product reduced modulo 2^16, and the same bits represent the two's-complement sum, difference and
product reduced modulo 2^16.
(R93; R94; R95.) -/
def Obligations.AluWrappingArithmetic : Prop :=
  ∀ a b : Word,
    (∃ r, alu16 .add a b = .ok r ∧ r.toNat = (a.toNat + b.toNat) % 2 ^ 16 ∧
      r = BitVec.ofInt 16 (a.toInt + b.toInt)) ∧
    (∃ r, alu16 .sub a b = .ok r ∧ (b.toNat ≤ a.toNat → r.toNat = a.toNat - b.toNat) ∧
      (a.toNat < b.toNat → r.toNat = 2 ^ 16 + a.toNat - b.toNat) ∧ r = BitVec.ofInt 16 (a.toInt - b.toInt)) ∧
    (∃ r, alu16 .mul a b = .ok r ∧ r.toNat = (a.toNat * b.toNat) % 2 ^ 16 ∧
      r = BitVec.ofInt 16 (a.toInt * b.toInt))

/-- For a nonzero divisor DIV and REM yield q and r with a = b*q + r and r < b; for a zero divisor both raise
DivideByZero and yield no result. No other operation ever faults. (The rounding is general knowledge,
93_implementation_defined.md G1; the policy for zero is the spec's decision D6; log entries 12, 13.)
(41_alu.md sections 2 and 4; 93_implementation_defined.md section 2.) -/
def Obligations.AluDivisionLaw : Prop :=
  (∀ a b : Word, b ≠ 0 → ∃ q r, alu16 .div a b = .ok q ∧ alu16 .rem a b = .ok r ∧
    a.toNat = b.toNat * q.toNat + r.toNat ∧ r.toNat < b.toNat) ∧
  (∀ a : Word, alu16 .div a 0 = .error .div ∧ alu16 .rem a 0 = .error .rem) ∧
  (∀ (op : AluOp) (a b : Word) (d : DivOp), alu16 op a b = .error d → b = 0 ∧ (op = .div ∨ op = .rem))

/-! ### Data-processing instructions -/

/-- The words of both rows decode to AND with its operands. For every condition that holds, every rd (R7
included), rn and operand B in both forms AND answers a next state: x[rd] is the bitwise AND of x[rn] and
operand B (a register, or the literal zero-extended), N and Z are those of the result, and every other
register, every data cell, the instruction memory and the fault are as before. Operands are the values
before the write.
(R110.) -/
def Obligations.AndWritesBitwiseAnd : Prop :=
  RowsDecode 0b0000#4 Instr.andReg Instr.andLit ∧
  ∀ (c : Cond) (rd rn : RegIdx) (s : State), condex c s.n s.z = true →
    (∀ m : RegIdx, WritesResult (.andReg c rd rn m) s rd ((s.readReg rn) &&& (s.readReg m))) ∧
    (∀ k : Lit, WritesResult (.andLit c rd rn k) s rd ((s.readReg rn) &&& (k.zeroExtend 16)))

/-- The words of both rows decode to OR with its operands. For every condition that holds, every rd (R7
included), rn and operand B in both forms OR answers a next state: x[rd] is the bitwise OR of x[rn] and
operand B (a register, or the literal zero-extended), N and Z are those of the result, and every other
register, every data cell, the instruction memory and the fault are as before. Operands are the values
before the write.
(R111.) -/
def Obligations.OrWritesBitwiseOr : Prop :=
  RowsDecode 0b0001#4 Instr.orReg Instr.orLit ∧
  ∀ (c : Cond) (rd rn : RegIdx) (s : State), condex c s.n s.z = true →
    (∀ m : RegIdx, WritesResult (.orReg c rd rn m) s rd ((s.readReg rn) ||| (s.readReg m))) ∧
    (∀ k : Lit, WritesResult (.orLit c rd rn k) s rd ((s.readReg rn) ||| (k.zeroExtend 16)))

/-- The words of both rows decode to ADD with its operands. For every condition that holds, every rd (R7
included), rn and operand B in both forms ADD answers a next state: x[rd] is the sum modulo 2^16 of x[rn]
and operand B (a register, or the literal zero-extended), N and Z are those of the result, and every other
register, every data cell, the instruction memory and the fault are as before. Operands are the values
before the write.
(R112.) -/
def Obligations.AddWritesWrappedSum : Prop :=
  RowsDecode 0b0010#4 Instr.addReg Instr.addLit ∧
  ∀ (c : Cond) (rd rn : RegIdx) (s : State), condex c s.n s.z = true →
    (∀ m : RegIdx, WritesResult (.addReg c rd rn m) s rd (BitVec.ofNat 16 (((s.readReg rn).toNat + (s.readReg m).toNat) % 2 ^ 16))) ∧
    (∀ k : Lit, WritesResult (.addLit c rd rn k) s rd (BitVec.ofNat 16 (((s.readReg rn).toNat + (k.zeroExtend 16).toNat) % 2 ^ 16)))

/-- The words of both rows decode to SUB with its operands. For every condition that holds, every rd (R7
included), rn and operand B in both forms SUB answers a next state: x[rd] is the difference A - B modulo
2^16 of x[rn] and operand B (a register, or the literal zero-extended), N and Z are those of the result,
and every other register, every data cell, the instruction memory and the fault are as before. Operands
are the values before the write.
(R113.) -/
def Obligations.SubWritesWrappedDifference : Prop :=
  RowsDecode 0b0011#4 Instr.subReg Instr.subLit ∧
  ∀ (c : Cond) (rd rn : RegIdx) (s : State), condex c s.n s.z = true →
    (∀ m : RegIdx, WritesResult (.subReg c rd rn m) s rd (BitVec.ofNat 16 ((2 ^ 16 + (s.readReg rn).toNat - (s.readReg m).toNat) % 2 ^ 16))) ∧
    (∀ k : Lit, WritesResult (.subLit c rd rn k) s rd (BitVec.ofNat 16 ((2 ^ 16 + (s.readReg rn).toNat - (k.zeroExtend 16).toNat) % 2 ^ 16)))

/-- The words of both rows decode to MUL with its operands. For every condition that holds, every rd (R7
included), rn and operand B in both forms MUL answers a next state: x[rd] is the product modulo 2^16 of
x[rn] and operand B (a register, or the literal zero-extended), N and Z are those of the result, and every
other register, every data cell, the instruction memory and the fault are as before. Operands are the
values before the write.
(R114.) -/
def Obligations.MulWritesLowProduct : Prop :=
  RowsDecode 0b0100#4 Instr.mulReg Instr.mulLit ∧
  ∀ (c : Cond) (rd rn : RegIdx) (s : State), condex c s.n s.z = true →
    (∀ m : RegIdx, WritesResult (.mulReg c rd rn m) s rd (BitVec.ofNat 16 (((s.readReg rn).toNat * (s.readReg m).toNat) % 2 ^ 16))) ∧
    (∀ k : Lit, WritesResult (.mulLit c rd rn k) s rd (BitVec.ofNat 16 (((s.readReg rn).toNat * (k.zeroExtend 16).toNat) % 2 ^ 16)))

/-- The words of both rows decode to DIV with its operands. For every condition that holds, every rd (R7
included), rn and operand B in both forms, operand B not zero, DIV answers a next state: x[rd] is the
unsigned quotient A div B of x[rn] and operand B (a register, or the literal zero-extended), N and Z are
those of the result, and every other register, every data cell, the instruction memory and the fault are
as before. Operands are the values before the write. (The rounding is general knowledge,
93_implementation_defined.md G1, log entry 12; a zero divisor is the subject of DivideByZeroFault.)
(42_data_processing.md sections 1 and 2, the pseudocode and flags of DIV.) -/
def Obligations.DivWritesQuotient : Prop :=
  RowsDecode 0b0101#4 Instr.divReg Instr.divLit ∧
  ∀ (c : Cond) (rd rn : RegIdx) (s : State), condex c s.n s.z = true →
    (∀ m : RegIdx, s.readReg m ≠ 0 → WritesResult (.divReg c rd rn m) s rd (BitVec.ofNat 16 ((s.readReg rn).toNat / (s.readReg m).toNat))) ∧
    (∀ k : Lit, k ≠ 0 → WritesResult (.divLit c rd rn k) s rd (BitVec.ofNat 16 ((s.readReg rn).toNat / (k.zeroExtend 16).toNat)))

/-- The words of both rows decode to REM with its operands. For every condition that holds, every rd (R7
included), rn and operand B in both forms, operand B not zero, REM answers a next state: x[rd] is the
unsigned remainder A rem B of x[rn] and operand B (a register, or the literal zero-extended), N and Z are
those of the result, and every other register, every data cell, the instruction memory and the fault are
as before. Operands are the values before the write. (The rounding is general knowledge,
93_implementation_defined.md G1, log entry 12; a zero divisor is the subject of DivideByZeroFault.)
(42_data_processing.md sections 1 and 2, the pseudocode and flags of REM.) -/
def Obligations.RemWritesRemainder : Prop :=
  RowsDecode 0b0110#4 Instr.remReg Instr.remLit ∧
  ∀ (c : Cond) (rd rn : RegIdx) (s : State), condex c s.n s.z = true →
    (∀ m : RegIdx, s.readReg m ≠ 0 → WritesResult (.remReg c rd rn m) s rd (BitVec.ofNat 16 ((s.readReg rn).toNat % (s.readReg m).toNat))) ∧
    (∀ k : Lit, k ≠ 0 → WritesResult (.remLit c rd rn k) s rd (BitVec.ofNat 16 ((s.readReg rn).toNat % (k.zeroExtend 16).toNat)))

/-- The words of both rows decode to XOR with its operands. For every condition that holds, every rd (R7
included), rn and operand B in both forms XOR answers a next state: x[rd] is the bitwise exclusive OR of
x[rn] and operand B (a register, or the literal zero-extended), N and Z are those of the result, and every
other register, every data cell, the instruction memory and the fault are as before. Operands are the
values before the write.
(R117.) -/
def Obligations.XorWritesExclusiveOr : Prop :=
  RowsDecode 0b0111#4 Instr.xorReg Instr.xorLit ∧
  ∀ (c : Cond) (rd rn : RegIdx) (s : State), condex c s.n s.z = true →
    (∀ m : RegIdx, WritesResult (.xorReg c rd rn m) s rd ((s.readReg rn) ^^^ (s.readReg m))) ∧
    (∀ k : Lit, WritesResult (.xorLit c rd rn k) s rd ((s.readReg rn) ^^^ (k.zeroExtend 16)))

/-! ### Memory-manipulation instructions -/

/-- The words of both rows decode to LDADD with its operands. For every condition that holds, every rd, rn and
operand B in both forms, with the effective address (x[rn] + B) mod 2^16 below DMEM_SIZE, LDADD answers a
next state: it loads the Word at the effective address into x[rd], sets N and Z from the address, and
changes no other register, no data cell, not the instruction memory and not the fault. With the address at
or above DMEM_SIZE it records IndexOutOfRange(dmem, addr), with the flags done and no other register and
no data cell changed.
(R130.) -/
def Obligations.LdaddLoadsFromSum : Prop :=
  RowsDecode 0b1000#4 Instr.ldaddReg Instr.ldaddLit ∧
  ∀ (c : Cond) (rd rn : RegIdx) (s : State), condex c s.n s.z = true →
    (∀ m : RegIdx, (ea .add s rn (.reg m)).toNat = ((s.readReg rn).toNat + (s.readReg m).toNat) % 2 ^ 16 ∧
      ((ea .add s rn (.reg m)).toNat < s.dmem.size →
        Loads (.ldaddReg c rd rn m) s false rd rn (ea .add s rn (.reg m))) ∧
      (s.dmem.size ≤ (ea .add s rn (.reg m)).toNat →
        AccessFaults (.ldaddReg c rd rn m) s false rn (ea .add s rn (.reg m)))) ∧
    (∀ k : Lit, (ea .add s rn (.lit k)).toNat = ((s.readReg rn).toNat + k.toNat) % 2 ^ 16 ∧
      ((ea .add s rn (.lit k)).toNat < s.dmem.size →
        Loads (.ldaddLit c rd rn k) s false rd rn (ea .add s rn (.lit k))) ∧
      (s.dmem.size ≤ (ea .add s rn (.lit k)).toNat →
        AccessFaults (.ldaddLit c rd rn k) s false rn (ea .add s rn (.lit k))))

/-- The words of both rows decode to LDSUB with its operands. For every condition that holds, every rd, rn and
operand B in both forms, with the effective address (x[rn] - B) mod 2^16 below DMEM_SIZE, LDSUB answers a
next state: it loads the Word at the effective address into x[rd], sets N and Z from the address, and
changes no other register, no data cell, not the instruction memory and not the fault. With the address at
or above DMEM_SIZE it records IndexOutOfRange(dmem, addr), with the flags done and no other register and
no data cell changed.
(R131.) -/
def Obligations.LdsubLoadsFromDifference : Prop :=
  RowsDecode 0b1001#4 Instr.ldsubReg Instr.ldsubLit ∧
  ∀ (c : Cond) (rd rn : RegIdx) (s : State), condex c s.n s.z = true →
    (∀ m : RegIdx, (ea .sub s rn (.reg m)).toNat = (2 ^ 16 + (s.readReg rn).toNat - (s.readReg m).toNat) % 2 ^ 16 ∧
      ((ea .sub s rn (.reg m)).toNat < s.dmem.size →
        Loads (.ldsubReg c rd rn m) s false rd rn (ea .sub s rn (.reg m))) ∧
      (s.dmem.size ≤ (ea .sub s rn (.reg m)).toNat →
        AccessFaults (.ldsubReg c rd rn m) s false rn (ea .sub s rn (.reg m)))) ∧
    (∀ k : Lit, (ea .sub s rn (.lit k)).toNat = (2 ^ 16 + (s.readReg rn).toNat - k.toNat) % 2 ^ 16 ∧
      ((ea .sub s rn (.lit k)).toNat < s.dmem.size →
        Loads (.ldsubLit c rd rn k) s false rd rn (ea .sub s rn (.lit k))) ∧
      (s.dmem.size ≤ (ea .sub s rn (.lit k)).toNat →
        AccessFaults (.ldsubLit c rd rn k) s false rn (ea .sub s rn (.lit k))))

/-- The words of both rows decode to LDADDW with its operands. For every condition that holds, every rd, rn
and operand B in both forms, with the effective address (x[rn] + B) mod 2^16 below DMEM_SIZE, LDADDW
answers a next state: it loads the Word at the effective address into x[rd], writes the address back to
x[rn] (the loaded Word wins if rd = rn), sets N and Z from the address, and changes no other register, no
data cell, not the instruction memory and not the fault. With the address at or above DMEM_SIZE it records
IndexOutOfRange(dmem, addr), with the flags and the write-back done and no other register and no data cell
changed.
(R132.) -/
def Obligations.LdaddwLoadsFromSumAndWritesBack : Prop :=
  RowsDecode 0b1010#4 Instr.ldaddwReg Instr.ldaddwLit ∧
  ∀ (c : Cond) (rd rn : RegIdx) (s : State), condex c s.n s.z = true →
    (∀ m : RegIdx, (ea .add s rn (.reg m)).toNat = ((s.readReg rn).toNat + (s.readReg m).toNat) % 2 ^ 16 ∧
      ((ea .add s rn (.reg m)).toNat < s.dmem.size →
        Loads (.ldaddwReg c rd rn m) s true rd rn (ea .add s rn (.reg m))) ∧
      (s.dmem.size ≤ (ea .add s rn (.reg m)).toNat →
        AccessFaults (.ldaddwReg c rd rn m) s true rn (ea .add s rn (.reg m)))) ∧
    (∀ k : Lit, (ea .add s rn (.lit k)).toNat = ((s.readReg rn).toNat + k.toNat) % 2 ^ 16 ∧
      ((ea .add s rn (.lit k)).toNat < s.dmem.size →
        Loads (.ldaddwLit c rd rn k) s true rd rn (ea .add s rn (.lit k))) ∧
      (s.dmem.size ≤ (ea .add s rn (.lit k)).toNat →
        AccessFaults (.ldaddwLit c rd rn k) s true rn (ea .add s rn (.lit k))))

/-- The words of both rows decode to LDSUBW with its operands. For every condition that holds, every rd, rn
and operand B in both forms, with the effective address (x[rn] - B) mod 2^16 below DMEM_SIZE, LDSUBW
answers a next state: it loads the Word at the effective address into x[rd], writes the address back to
x[rn] (the loaded Word wins if rd = rn), sets N and Z from the address, and changes no other register, no
data cell, not the instruction memory and not the fault. With the address at or above DMEM_SIZE it records
IndexOutOfRange(dmem, addr), with the flags and the write-back done and no other register and no data cell
changed.
(R133.) -/
def Obligations.LdsubwLoadsFromDifferenceAndWritesBack : Prop :=
  RowsDecode 0b1011#4 Instr.ldsubwReg Instr.ldsubwLit ∧
  ∀ (c : Cond) (rd rn : RegIdx) (s : State), condex c s.n s.z = true →
    (∀ m : RegIdx, (ea .sub s rn (.reg m)).toNat = (2 ^ 16 + (s.readReg rn).toNat - (s.readReg m).toNat) % 2 ^ 16 ∧
      ((ea .sub s rn (.reg m)).toNat < s.dmem.size →
        Loads (.ldsubwReg c rd rn m) s true rd rn (ea .sub s rn (.reg m))) ∧
      (s.dmem.size ≤ (ea .sub s rn (.reg m)).toNat →
        AccessFaults (.ldsubwReg c rd rn m) s true rn (ea .sub s rn (.reg m)))) ∧
    (∀ k : Lit, (ea .sub s rn (.lit k)).toNat = (2 ^ 16 + (s.readReg rn).toNat - k.toNat) % 2 ^ 16 ∧
      ((ea .sub s rn (.lit k)).toNat < s.dmem.size →
        Loads (.ldsubwLit c rd rn k) s true rd rn (ea .sub s rn (.lit k))) ∧
      (s.dmem.size ≤ (ea .sub s rn (.lit k)).toNat →
        AccessFaults (.ldsubwLit c rd rn k) s true rn (ea .sub s rn (.lit k))))

/-- The words of both rows decode to STADD with its operands. For every condition that holds, every rd, rn and
operand B in both forms, with the effective address (x[rn] + B) mod 2^16 below DMEM_SIZE, STADD answers a
next state: it stores x[rd] at the effective address, sets N and Z from the address, and changes no other
register, no other data cell, not the instruction memory and not the fault. With the address at or above
DMEM_SIZE it records IndexOutOfRange(dmem, addr), with the flags done and no other register and no data
cell changed.
(R134.) -/
def Obligations.StaddStoresToSum : Prop :=
  RowsDecode 0b1100#4 Instr.staddReg Instr.staddLit ∧
  ∀ (c : Cond) (rd rn : RegIdx) (s : State), condex c s.n s.z = true →
    (∀ m : RegIdx, (ea .add s rn (.reg m)).toNat = ((s.readReg rn).toNat + (s.readReg m).toNat) % 2 ^ 16 ∧
      ((ea .add s rn (.reg m)).toNat < s.dmem.size →
        Stores (.staddReg c rd rn m) s false rd rn (ea .add s rn (.reg m))) ∧
      (s.dmem.size ≤ (ea .add s rn (.reg m)).toNat →
        AccessFaults (.staddReg c rd rn m) s false rn (ea .add s rn (.reg m)))) ∧
    (∀ k : Lit, (ea .add s rn (.lit k)).toNat = ((s.readReg rn).toNat + k.toNat) % 2 ^ 16 ∧
      ((ea .add s rn (.lit k)).toNat < s.dmem.size →
        Stores (.staddLit c rd rn k) s false rd rn (ea .add s rn (.lit k))) ∧
      (s.dmem.size ≤ (ea .add s rn (.lit k)).toNat →
        AccessFaults (.staddLit c rd rn k) s false rn (ea .add s rn (.lit k))))

/-- The words of both rows decode to STSUB with its operands. For every condition that holds, every rd, rn and
operand B in both forms, with the effective address (x[rn] - B) mod 2^16 below DMEM_SIZE, STSUB answers a
next state: it stores x[rd] at the effective address, sets N and Z from the address, and changes no other
register, no other data cell, not the instruction memory and not the fault. With the address at or above
DMEM_SIZE it records IndexOutOfRange(dmem, addr), with the flags done and no other register and no data
cell changed.
(R135.) -/
def Obligations.StsubStoresToDifference : Prop :=
  RowsDecode 0b1101#4 Instr.stsubReg Instr.stsubLit ∧
  ∀ (c : Cond) (rd rn : RegIdx) (s : State), condex c s.n s.z = true →
    (∀ m : RegIdx, (ea .sub s rn (.reg m)).toNat = (2 ^ 16 + (s.readReg rn).toNat - (s.readReg m).toNat) % 2 ^ 16 ∧
      ((ea .sub s rn (.reg m)).toNat < s.dmem.size →
        Stores (.stsubReg c rd rn m) s false rd rn (ea .sub s rn (.reg m))) ∧
      (s.dmem.size ≤ (ea .sub s rn (.reg m)).toNat →
        AccessFaults (.stsubReg c rd rn m) s false rn (ea .sub s rn (.reg m)))) ∧
    (∀ k : Lit, (ea .sub s rn (.lit k)).toNat = (2 ^ 16 + (s.readReg rn).toNat - k.toNat) % 2 ^ 16 ∧
      ((ea .sub s rn (.lit k)).toNat < s.dmem.size →
        Stores (.stsubLit c rd rn k) s false rd rn (ea .sub s rn (.lit k))) ∧
      (s.dmem.size ≤ (ea .sub s rn (.lit k)).toNat →
        AccessFaults (.stsubLit c rd rn k) s false rn (ea .sub s rn (.lit k))))

/-- The words of both rows decode to STADDW with its operands. For every condition that holds, every rd, rn
and operand B in both forms, with the effective address (x[rn] + B) mod 2^16 below DMEM_SIZE, STADDW
answers a next state: it stores x[rd] (the new address if rd is the base) at the effective address, writes
the address back to x[rn], sets N and Z from the address, and changes no other register, no other data
cell, not the instruction memory and not the fault. With the address at or above DMEM_SIZE it records
IndexOutOfRange(dmem, addr), with the flags and the write-back done and no other register and no data cell
changed.
(R136.) -/
def Obligations.StaddwStoresToSumAndWritesBack : Prop :=
  RowsDecode 0b1110#4 Instr.staddwReg Instr.staddwLit ∧
  ∀ (c : Cond) (rd rn : RegIdx) (s : State), condex c s.n s.z = true →
    (∀ m : RegIdx, (ea .add s rn (.reg m)).toNat = ((s.readReg rn).toNat + (s.readReg m).toNat) % 2 ^ 16 ∧
      ((ea .add s rn (.reg m)).toNat < s.dmem.size →
        Stores (.staddwReg c rd rn m) s true rd rn (ea .add s rn (.reg m))) ∧
      (s.dmem.size ≤ (ea .add s rn (.reg m)).toNat →
        AccessFaults (.staddwReg c rd rn m) s true rn (ea .add s rn (.reg m)))) ∧
    (∀ k : Lit, (ea .add s rn (.lit k)).toNat = ((s.readReg rn).toNat + k.toNat) % 2 ^ 16 ∧
      ((ea .add s rn (.lit k)).toNat < s.dmem.size →
        Stores (.staddwLit c rd rn k) s true rd rn (ea .add s rn (.lit k))) ∧
      (s.dmem.size ≤ (ea .add s rn (.lit k)).toNat →
        AccessFaults (.staddwLit c rd rn k) s true rn (ea .add s rn (.lit k))))

/-- The words of both rows decode to STSUBW with its operands. For every condition that holds, every rd, rn
and operand B in both forms, with the effective address (x[rn] - B) mod 2^16 below DMEM_SIZE, STSUBW
answers a next state: it stores x[rd] (the new address if rd is the base) at the effective address, writes
the address back to x[rn], sets N and Z from the address, and changes no other register, no other data
cell, not the instruction memory and not the fault. With the address at or above DMEM_SIZE it records
IndexOutOfRange(dmem, addr), with the flags and the write-back done and no other register and no data cell
changed.
(R137.) -/
def Obligations.StsubwStoresToDifferenceAndWritesBack : Prop :=
  RowsDecode 0b1111#4 Instr.stsubwReg Instr.stsubwLit ∧
  ∀ (c : Cond) (rd rn : RegIdx) (s : State), condex c s.n s.z = true →
    (∀ m : RegIdx, (ea .sub s rn (.reg m)).toNat = (2 ^ 16 + (s.readReg rn).toNat - (s.readReg m).toNat) % 2 ^ 16 ∧
      ((ea .sub s rn (.reg m)).toNat < s.dmem.size →
        Stores (.stsubwReg c rd rn m) s true rd rn (ea .sub s rn (.reg m))) ∧
      (s.dmem.size ≤ (ea .sub s rn (.reg m)).toNat →
        AccessFaults (.stsubwReg c rd rn m) s true rn (ea .sub s rn (.reg m)))) ∧
    (∀ k : Lit, (ea .sub s rn (.lit k)).toNat = (2 ^ 16 + (s.readReg rn).toNat - k.toNat) % 2 ^ 16 ∧
      ((ea .sub s rn (.lit k)).toNat < s.dmem.size →
        Stores (.stsubwLit c rd rn k) s true rd rn (ea .sub s rn (.lit k))) ∧
      (s.dmem.size ≤ (ea .sub s rn (.lit k)).toNat →
        AccessFaults (.stsubwLit c rd rn k) s true rn (ea .sub s rn (.lit k))))

/-- The address of the add forms is (x[rn] + B) mod 2^16 and of the subtract forms (x[rn] - B) mod 2^16, where
B is x[src2] or the literal 0 to 7 zero-extended; it is the result of the ALU operation 0b010 | operation,
which cannot fault; with DMEM_SIZE = 2^16 every effective address is in range.
(43_memory_manipulation.md section 1; 30_encoding.md section 3; 20_memory.md section 2.) -/
def Obligations.EffectiveAddressWraps : Prop :=
  ∀ (s : State) (rn : RegIdx) (b : OperandB),
    (ea .add s rn b).toNat = ((s.readReg rn).toNat + (operandB s b).toNat) % 2 ^ 16 ∧
    (ea .sub s rn b).toNat = (2 ^ 16 + (s.readReg rn).toNat - (operandB s b).toNat) % 2 ^ 16 ∧
    (∀ m, operandB s (.reg m) = s.readReg m) ∧ (∀ k : Lit, (operandB s (.lit k)).toNat = k.toNat) ∧
    (∀ o, aluOpOfCode (0b010 ||| o.code) = .ok (addressAluOp o) ∧
      alu16 (addressAluOp o) (s.readReg rn) (operandB s b) = .ok (ea o s rn b) ∧
      (s.dmem.size = 2 ^ 16 → (ea o s rn b).toNat < s.dmem.size))

/-- On the state the fetch stage leaves, operand A is x[rn] and register operand B is x[src2] of the state
before, except that R7 reads as (p + 1) mod 2^16 in either place; a literal operand B is the 3-bit value
zero-extended. Operands are read before any write of the dispatch stage: the result of any data-processing
instruction with rd = rn = src2 is that of the register before the instruction.
(R76.) -/
def Obligations.OperandsAfterTheFetchStage : Prop :=
  (∀ (s : State) (r : RegIdx), operandA s.advancePc r = (if r = 7 then s.readReg 7 + 1 else s.readReg r) ∧
    operandB s.advancePc (.reg r) = (if r = 7 then s.readReg 7 + 1 else s.readReg r)) ∧
  (∀ (s : State) (k : Lit), (operandB s (.lit k)).toNat = k.toNat) ∧
  (∀ (s : State) (op : AluOp) (c : Cond) (r : RegIdx) (v : Word), condex c s.n s.z = true →
    alu16 op (s.readReg r) (s.readReg r) = .ok v →
    ∃ t, exec (dpInstr op c r r (.reg r)) s = .next t ∧ t.readReg r = v)

/-- Over runs of whole steps, each with its fetch stage. If the step from s stores v at index a, none of the
next k steps stores to a, and the step after them is a load from a whose condition passes, then that step
answers a next state whose x[rd] is v, with no fault recorded. In a run from the launch state, if none of
the first k steps stores to a and the next step is a load from a below DMEM_SIZE whose condition passes,
its x[rd] is DMEM_INIT[a], or 0x0000 where the supplied list is shorter (log entries 4 and 10). The store
and the load are of any form with any operands, R7 as base, offset or rd included; the steps between are
any that do not store to a.
(20_memory.md section 4; 40_cycle_and_decode.md section 1.) -/
def Obligations.LoadReturnsTheLastStore : Prop :=
  (∀ (s : State) (a v : Word) (k : Nat) (rd : RegIdx), StoresWord s a v →
    (∀ j, 1 ≤ j → j ≤ k → ¬∃ u, StoresWord (run j s) a u) → LoadsWord (run (k + 1) s) a rd →
    ∃ t, step (run (k + 1) s) = .next t ∧ t.readReg rd = v ∧ t.fault = none) ∧
  (∀ (p : Params) (a : Word) (k : Nat) (rd : RegIdx), a.toNat < p.dmemSize →
    (∀ j, j < k → ¬∃ u, StoresWord (run j (launch p)) a u) → LoadsWord (run k (launch p)) a rd →
    ∃ t, step (run k (launch p)) = .next t ∧ t.readReg rd = p.dmemInit[a.toNat]?.getD 0 ∧ t.fault = none)

/-! ### The gate, faults and the step -/

/-- For every one of the 32 instruction forms, if its condition does not hold of the flags, executing it
leaves the state after the fetch stage as it is: no register, flag, memory or fault change.
(40_cycle_and_decode.md section 2.) -/
def Obligations.FailedConditionSkipsEveryInstruction : Prop :=
  ∀ (i : Instr) (s : State), condex i.cond s.n s.z = false → exec i s = .next s

/-- In an unfaulted state: if the fetched word is an instruction whose condition fails, the step's complete
effect is x[7] <- x[7] + 1 mod 2^16, every other register, both flags, both memories and the fault as
before; and if the fetch itself is out of range the step faults whatever the flags. (That the flags are
kept is marked by the spec as derived, 92_eei_decisions.md D17.)
(40_cycle_and_decode.md section 2.) -/
def Obligations.SkippedStepOnlyAdvancesThePc : Prop :=
  ∀ s : State, s.fault = none →
    (∀ w i, s.iFetch s.pc = some w → decode w = .ok i → condex i.cond s.n s.z = false →
      ∃ t, step s = .next t ∧ (t.readReg 7).toNat = ((s.readReg 7).toNat + 1) % 2 ^ 16 ∧ OthersKept 7 s t ∧
        FlagsKept s t ∧ DataKept s t ∧ ProgramAndFaultKept s t) ∧
    (s.imem.size ≤ (s.readReg 7).toNat →
      ∃ t, step s = .next t ∧ t.fault = some (.imemIndexOutOfRange (s.readReg 7)))

/-- For DIV and REM, register and literal form, with a passing condition and a zero divisor: the next state
records DivideByZero with the operation, the dividend, the index and word of the instruction, and every
register, both flags and the memories are as before. Conversely, an instruction run from an unfaulted
state that leaves DivideByZero recorded is one of these forms with a zero divisor and a passing condition.
(The fatal policy is the spec's decision D6, log entry 13.)
(60_exceptions.md section 1.) -/
def Obligations.DivideByZeroFault : Prop :=
  (∀ (c : Cond) (rd rn : RegIdx) (s : State), condex c s.n s.z = true →
    (∀ m : RegIdx, s.readReg m = 0 → DivisionFaults (.divReg c rd rn m) s .div rn ∧
      DivisionFaults (.remReg c rd rn m) s .rem rn) ∧
    DivisionFaults (.divLit c rd rn 0) s .div rn ∧ DivisionFaults (.remLit c rd rn 0) s .rem rn) ∧
  (∀ (i : Instr) (s t : State) (d : DivOp) (a p w : Word), s.fault = none → exec i s = .next t →
    t.fault = some (.divideByZero d a p w) → condex i.cond s.n s.z = true ∧ DividesByZero i s)

/-- In an unfaulted state with x[7] at or above IMEM_SIZE, the step answers a state that records
IndexOutOfRange(imem, x[7]); its x[7] is one more, and every other register, the flags and both memories
are as before. Below IMEM_SIZE the word at that index is fetched.
(R72.) -/
def Obligations.FetchOutOfRangeFault : Prop :=
  ∀ s : State, s.fault = none →
    (s.imem.size ≤ (s.readReg 7).toNat → ∃ t, step s = .next t ∧
      t.fault = some (.imemIndexOutOfRange (s.readReg 7)) ∧
      (t.readReg 7).toNat = ((s.readReg 7).toNat + 1) % 2 ^ 16 ∧ OthersKept 7 s t ∧ FlagsKept s t ∧
      DataKept s t ∧ t.imem = s.imem) ∧
    ((s.readReg 7).toNat < s.imem.size → ∃ w, s.imem.read (s.readReg 7) = some w ∧ s.fetch = .ok (w, s.advancePc) ∧
      s.advancePc.imem = s.imem)

/-- If a fault is recorded, step answers that fault and no next state, and a run of any number of steps ends
in the same state. (The spec's decision D12: a faulted core takes no further step; log entry 6.)
(40_cycle_and_decode.md section 4.) -/
def Obligations.FaultedCoreTakesNoStep : Prop :=
  ∀ (s : State) (f : Fault), s.fault = some f →
    step s = .fault f ∧ (∀ t, step s ≠ .next t) ∧ ∀ k, run k s = s

/-- If a step from an unfaulted state ends with a fault recorded, it is IndexOutOfRange(imem, pc_old) with
pc_old at or above IMEM_SIZE; or IndexOutOfRange(dmem, a) raised by a load or store, a its effective
address on the state after the fetch stage and at or above DMEM_SIZE; or DivideByZero raised by a DIV or
REM whose operand B is zero, with which of the two it is and its operand A, the dividend; the last two
carry pc_old and the fetched instruction word, and the instruction's condition held. In particular no step
records an invalid opcode, an invalid condition or a register index fault.
(60_exceptions.md sections 1 and 2.) -/
def Obligations.OnlyTheThreeReachableFaults : Prop :=
  ∀ (s t : State) (f : Fault), s.fault = none → step s = .next t → t.fault = some f →
    (f = .imemIndexOutOfRange s.pc ∧ s.imem.size ≤ s.pc.toNat) ∨
    (∃ w i, s.iFetch s.pc = some w ∧ decode w = .ok i ∧ condex i.cond s.n s.z = true ∧
      ((∃ o c rd rn b, i = mmInstr o c rd rn b ∧ s.dmem.size ≤ (ea o.operation s.advancePc rn b).toNat ∧
          f = .dmemIndexOutOfRange (ea o.operation s.advancePc rn b) s.pc w) ∨
       (∃ op d c rd rn b, i = dpInstr op c rd rn b ∧ (op = .div ∧ d = .div ∨ op = .rem ∧ d = .rem) ∧
          operandB s.advancePc b = 0 ∧ f = .divideByZero d (operandA s.advancePc rn) s.pc w)))

/-- Every state without a recorded fault has exactly one outcome and it is a next state (possibly one that
records a fault): no word, operand, flag pair or memory size makes the step refuse.
(40_cycle_and_decode.md section 4; 30_encoding.md section 4.) -/
def Obligations.UnfaultedCoreAlwaysSteps : Prop :=
  ∀ s : State, s.fault = none → ∃ t, step s = .next t

/-- In an unfaulted state whose fetched word decodes to i, step is exec of i on the state after the fetch
stage; that state differs from the one before only in x[7], which is one more modulo 2^16, so that
operands read x[7] as p + 1; and the same holds of the word withFetchWord places.
(40_cycle_and_decode.md section 1.) -/
def Obligations.StepRunsTheDecodedInstruction : Prop :=
  (∀ (s : State) (w : Word) (i : Instr), s.fault = none → s.iFetch s.pc = some w → decode w = .ok i →
    step s = exec i s.advancePc ∧ (s.advancePc.readReg 7).toNat = ((s.readReg 7).toNat + 1) % 2 ^ 16 ∧
    OthersKept 7 s s.advancePc ∧ FlagsKept s s.advancePc ∧ DataKept s s.advancePc ∧ ProgramAndFaultKept s s.advancePc) ∧
  (∀ (s : State) (i : Instr), s.fault = none → decode (encode i) = .ok i →
    step (s.withFetchWord 16 (encode i).toNat) = exec i (s.withFetchWord 16 (encode i).toNat).advancePc)

/-- The fetch stage adds 1 to x[7] modulo 2^16 (0xFFFF goes to 0x0000) in every unfaulted step, before the
word is read and whatever it is: the state the instruction or the fetch fault sees has the increment, the
flags, the other registers, the memories and the fault as before, and the register latch low. (That the
increment leaves the flags is the spec's decision D5, log entry 18.)
(40_cycle_and_decode.md section 1.) -/
def Obligations.FetchStageIncrementsThePc : Prop :=
  ∀ s : State, (s.advancePc.readReg 7).toNat = ((s.readReg 7).toNat + 1) % 2 ^ 16 ∧ OthersKept 7 s s.advancePc ∧
    FlagsKept s s.advancePc ∧ DataKept s s.advancePc ∧ ProgramAndFaultKept s s.advancePc ∧ s.advancePc.rf.we = false ∧
    (s.fault = none →
      (∃ f, step s = .next (s.advancePc.raise f)) ∨ ∃ w, s.iFetch (s.readReg 7) = some w ∧
        ((∃ i, decode w = .ok i ∧ step s = exec i s.advancePc) ∨
          ∃ e, decode w = .error e ∧ step s = rejectFields e s.advancePc))

/-! ### Control transfer -/

/-- If executing an instruction leaves x[7] different from what the fetch stage left, the instruction's
condition held and it is a data-processing instruction or a load with rd = 7, or a form with write-back
with rn = 7.
(44_control_transfer.md, the list of writes that can hit x[7].) -/
def Obligations.OnlyListedWritesReachThePc : Prop :=
  ∀ (i : Instr) (s t : State), exec i s = .next t → t.readReg 7 ≠ s.readReg 7 →
    condex i.cond s.n s.z = true ∧ CanWritePc i

/-- At index p, an ADD whose rd and rn are R7 and whose condition holds makes the next fetch index (p + 1 + k)
mod 2^16 for the literal form and (p + 1 + x[m]) mod 2^16 for the register form (x[7] reading p + 1), with
N and Z those of the target; with k = 0 only the flags change beyond the increment. The word 0x0BFA at
index 3 is ADD R7, R7, #2 and leads to index 6. (The spec marks it as derived; that x[7] is the program
counter is its decision D4, log entry 18.)
(44_control_transfer.md, the forward skip.) -/
def Obligations.ForwardSkip : Prop :=
  (∀ (s : State) (w : Word) (c : Cond), s.fault = none → s.iFetch s.pc = some w → condex c s.n s.z = true →
    (∀ k : Lit, decode w = .ok (.addLit c 7 7 k) → ∃ t, step s = .next t ∧
      t.pc.toNat = (s.pc.toNat + 1 + k.toNat) % 2 ^ 16 ∧ FlagsOf t.pc t ∧ OthersKept 7 s t ∧ DataKept s t ∧
      ProgramAndFaultKept s t) ∧
    (∀ m : RegIdx, decode w = .ok (.addReg c 7 7 m) → ∃ t, step s = .next t ∧
      t.pc.toNat = (s.pc.toNat + 1 + (if m = 7 then s.pc.toNat + 1 else (s.readReg m).toNat)) % 2 ^ 16 ∧
      FlagsOf t.pc t ∧ OthersKept 7 s t ∧ DataKept s t ∧ ProgramAndFaultKept s t)) ∧
  decode 0x0BFA = .ok (.addLit .al 7 7 2) ∧
  (∀ s : State, s.fault = none → s.pc = 3 → s.iFetch 3 = some 0x0BFA → ∃ t, step s = .next t ∧ t.pc = 6)

/-- At index p, a SUB whose rd and rn are R7 and whose condition holds makes the next fetch index (p + 1 - k)
mod 2^16, so p itself for k = 1, and (p + 1 - x[m]) mod 2^16 for the register form, with N and Z those of
the target. The word 0xCFFB is SUB.P R7, R7, #3: at index 3 it leads to 1 when N = 0 and Z = 0 and to 4
otherwise; 0x0FF9 is SUB R7, R7, #1. (The spec marks it as derived; that x[7] is the program counter is
its decision D4, log entry 18.)
(44_control_transfer.md, the backward branch.) -/
def Obligations.BackwardBranch : Prop :=
  (∀ (s : State) (w : Word) (c : Cond), s.fault = none → s.iFetch s.pc = some w → condex c s.n s.z = true →
    (∀ k : Lit, decode w = .ok (.subLit c 7 7 k) → ∃ t, step s = .next t ∧
      t.pc.toNat = (2 ^ 16 + s.pc.toNat + 1 - k.toNat) % 2 ^ 16 ∧ (k = 1 → t.pc = s.pc) ∧ FlagsOf t.pc t ∧
      OthersKept 7 s t ∧ DataKept s t ∧ ProgramAndFaultKept s t) ∧
    (∀ m : RegIdx, decode w = .ok (.subReg c 7 7 m) → ∃ t, step s = .next t ∧
      t.pc = (if m = 7 then 0 else s.pc + 1 - s.readReg m) ∧ FlagsOf t.pc t ∧ OthersKept 7 s t ∧
      DataKept s t ∧ ProgramAndFaultKept s t)) ∧
  decode 0xCFFB = .ok (.subLit .p 7 7 3) ∧ decode 0x0FF9 = .ok (.subLit .al 7 7 1) ∧
  (∀ s : State, s.fault = none → s.pc = 3 → s.iFetch 3 = some 0xCFFB →
    ∃ t, step s = .next t ∧ t.pc = if s.n = false ∧ s.z = false then 1 else 4)

/-! ### The storage blocks -/

/-- A write changes exactly its register if the latch is set and nothing if it is not, and never the latch;
set_write_enable changes the latch only; a bracketed write reads back whatever the latch was and leaves it
low. A write with the latch unset followed by enabling and repeating it takes effect the second time.
(R13.) -/
def Obligations.RegisterFileWriteGating : Prop :=
  ∀ (f : RegFile) (k : RegIdx) (v : Word),
    (f.we = false → f.write k v = f) ∧
    (f.we = true → ∀ j, (f.write k v).read j = if j = k then v else f.read j) ∧ (f.write k v).we = f.we ∧
    (∀ b, (f.setWriteEnable b).we = b ∧ ∀ j, (f.setWriteEnable b).read j = f.read j) ∧
    (∀ j, (f.bracket k v).read j = if j = k then v else f.read j) ∧ (f.bracket k v).we = false ∧
    (f.we = false → ∀ u, (((f.write k u).setWriteEnable true).write k v).read k = v)

/-- A read below the size answers a Word and at or above it is the out-of-range fault; a write at or above the
size is that fault whatever the latch, a silent no-op with the latch low, and with the latch set changes
exactly its cell, keeping size and latch; set_write_enable changes the latch only. (That the range is
tested before the latch is the spec's decision D7, log entry 19.)
(20_memory.md section 1.) -/
def Obligations.MemoryContract : Prop :=
  ∀ (m : Memory) (a v : Word),
    (a.toNat < m.size → ∃ w, m.read a = some w) ∧ (m.size ≤ a.toNat → m.read a = none ∧ m.write a v = none) ∧
    (a.toNat < m.size → m.we = false → m.write a v = some m) ∧
    (a.toNat < m.size → m.we = true → ∃ m', m.write a v = some m' ∧ m'.size = m.size ∧ m'.we = m.we ∧
      ∀ b, m'.read b = if b = a then some v else m.read b) ∧
    (∀ b, (m.setWriteEnable b).we = b ∧ (m.setWriteEnable b).size = m.size ∧
      ∀ c, (m.setWriteEnable b).read c = m.read c)

/-- MemRead of an index below DMEM_SIZE answers the cell's Word and is the out-of-range fault at or above it.
MemWrite at or above DMEM_SIZE is that fault; below it, it takes effect whatever the latch was: the cell
reads as the value, every other cell as before, the latch ends low, and registers, flags, instruction
memory and fault are as before.
(R33; R34.) -/
def Obligations.DataMemoryPrimitives : Prop :=
  ∀ (s : State) (a v : Word),
    (a.toNat < s.dmem.size → s.memRead a = some (cellsGet s.dmem.cells a.toNat)) ∧
    (s.dmem.size ≤ a.toNat → s.memRead a = none ∧ s.memWrite a v = none) ∧
    (a.toNat < s.dmem.size → ∃ t, s.memWrite a v = some t ∧ t.memRead a = some v ∧
      (∀ b : Word, b ≠ a → t.memRead b = s.memRead b) ∧ t.dmem.we = false ∧ t.dmem.size = s.dmem.size ∧
      (∀ k, t.readReg k = s.readReg k) ∧ t.rf.we = s.rf.we ∧ FlagsKept s t ∧ ProgramAndFaultKept s t)

/-- The canonical form makes memory plain comparable data: two memories in canonical form, of the same size of
at most 2^16 cells and the same latch, that read the same at every index, are equal. (The form is the
model's own representation, log entry 1.)
(20_memory.md sections 1 and 2.) -/
def Obligations.MemoriesAreDeterminedByTheirReads : Prop :=
  ∀ m m' : Memory, m.wf = true → m'.wf = true → m.size = m'.size → m.size ≤ 2 ^ 16 → m.we = m'.we →
    (∀ a : Word, m.read a = m'.read a) → m = m'

/-! ### Whole-machine rules -/

/-- For every state that satisfies CoreInv (the three latches low, N and Z not both set, both memories in
canonical form, IMEM_SIZE at most 2^16, DMEM_SIZE between 1 and 2^16), if the step answers a next state,
that state satisfies CoreInv.
(10_state.md sections 3, 5 and 6; 00_scope.md section 4.) -/
def Obligations.StepKeepsTheInvariant : Prop :=
  ∀ s t : State, CoreInv s → step s = .next t → CoreInv t

/-- State.reset satisfies CoreInv. (Its memory sizes are the model's choice of parameters, log entries 2 and
3; its flags 0 are log entry 5.)
(10_state.md section 8.) -/
def Obligations.ResetSatisfiesTheInvariant : Prop :=
  CoreInv State.reset

/-- For all well-formed launch parameters (any program of up to 2^16 words, any DMEM_SIZE, any initial data)
and every number of steps, the state the run ends in satisfies CoreInv; in particular the flag pair (1, 1)
is unreachable. (It rests on the flags 0 that the launch state starts with, log entry 5.)
(10_state.md sections 3 and 8; 70_reset_and_hazards.md sections 1 to 3.) -/
def Obligations.EveryRunKeepsTheInvariant : Prop :=
  ∀ (p : Params) (k : Nat), p.wf = true → CoreInv (run k (launch p)) ∧
    ¬((run k (launch p)).n = true ∧ (run k (launch p)).z = true)

/-- For well-formed parameters, the launch state has all eight registers 0x0000 (so the first fetch is at
index 0), N = 0, Z = 0, the three latches low, no fault, IMEM_SIZE the program's length with imem[a] =
PROGRAM[a], the given DMEM_SIZE with dmem[a] = DMEM_INIT[a], or 0x0000 where the supplied list is shorter
(log entry 10). With the defaults it is State.reset. (The reset values of R1 to R6, N, Z and the data are
the spec's decisions D8 and D9, log entries 4 and 5.)
(10_state.md section 8; 70_reset_and_hazards.md section 1.) -/
def Obligations.LaunchState : Prop :=
  (∀ p : Params, p.wf = true →
    (∀ k, (launch p).readReg k = 0) ∧ (launch p).pc = 0 ∧ (launch p).n = false ∧ (launch p).z = false ∧
    (launch p).rf.we = false ∧ (launch p).imem.we = false ∧ (launch p).dmem.we = false ∧ (launch p).fault = none ∧
    (launch p).imem.size = p.program.length ∧ (launch p).dmem.size = p.dmemSize ∧
    (∀ a : Word, (launch p).imem.read a = p.program[a.toNat]?) ∧
    (∀ a : Word, (launch p).dmem.read a =
      if a.toNat < p.dmemSize then some (p.dmemInit[a.toNat]?.getD 0) else none)) ∧
  launch {} = State.reset

/-- After any step the instruction memory (cells, size, latch) is what it was, so stores are never seen by
instruction fetch, and DMEM_SIZE is what it was.
(10_state.md section 5; 20_memory.md section 4.) -/
def Obligations.StepNeverWritesTheProgram : Prop :=
  ∀ s t : State, step s = .next t →
    t.imem = s.imem ∧ (∀ a, t.iFetch a = s.iFetch a) ∧ t.dmem.size = s.dmem.size

/-- If executing an instruction changes what some data cell reads, the instruction is one of the eight store
forms, its condition held, and no fault was raised by it.
(10_state.md section 5; 20_memory.md section 1.) -/
def Obligations.OnlyStoresChangeTheDataMemory : Prop :=
  ∀ (i : Instr) (s t : State) (a : Word), exec i s = .next t → t.memRead a ≠ s.memRead a →
    IsStore i ∧ condex i.cond s.n s.z = true ∧ t.fault = s.fault

/-- Executing an instruction keeps both flags if its condition failed or it divides by zero. Otherwise it sets
N and Z from one Word, bit 15 and the zero test: for a data-processing instruction the ALU result for its
operation and operands, for a load or store (in range or not) its effective address. So it never leaves
the pair (1, 1) then.
(41_alu.md section 3; 10_state.md section 3.) -/
def Obligations.ExecutedInstructionsRewriteBothFlags : Prop :=
  ∀ (i : Instr) (s t : State), exec i s = .next t →
    ((condex i.cond s.n s.z = false ∨ DividesByZero i s) → FlagsKept s t) ∧
    (condex i.cond s.n s.z = true → ¬DividesByZero i s →
      (∃ r : Word, FlagSource i s r ∧ FlagsOf r t) ∧ ¬(t.n = true ∧ t.z = true))

/-- The latches never change the outcome of a step: if two states agree in everything but the three latches,
their steps have the same outcome, and next states again agree in everything but the latches.
(10_state.md section 6.) -/
def Obligations.LatchesNeverMatter : Prop :=
  ∀ s s' : State, latchesLowered s = latchesLowered s' →
    (∃ f, step s = .fault f ∧ step s' = .fault f) ∨
    (∃ t t', step s = .next t ∧ step s' = .next t' ∧ latchesLowered t = latchesLowered t')

/-- fault is none after reset; once it is set no step changes it or anything else; and no instruction reads
it: executing an instruction with any recorded fault gives the same registers, flags and memories as with
none, and keeps the recorded fault unless it raises one. (The fault register is the spec's decision D12,
log entry 6.)
(10_state.md section 7.) -/
def Obligations.FaultIsTerminalAndUnread : Prop :=
  State.reset.fault = none ∧ (∀ p, (launch p).fault = none) ∧
  (∀ (s : State) (f : Fault), s.fault = some f → (∀ t, step s ≠ .next t) ∧ ∀ k, (run k s).fault = some f) ∧
  (∀ (i : Instr) (s : State) (f : Fault), s.fault = none → ∃ t t', exec i s = .next t ∧
    exec i { s with fault := some f } = .next t' ∧ { t' with fault := none } = { t with fault := none } ∧
    (t.fault = none → t'.fault = some f) ∧ (t.fault ≠ none → t'.fault = t.fault))

/-- For a run of N steps from an unfaulted state: either all N steps answer a next state and none of the
states, the final one included, records a fault; or there is a first step k, 1 <= k <= N, that leaves a
fault recorded, no earlier state records one, and the run ends in the state that step left. (The step
count is the spec's open parameter, D15, log entry 17.)
(70_reset_and_hazards.md section 3.) -/
def Obligations.RunEndsInOneOfTwoWays : Prop :=
  ∀ (cycles : Nat) (s : State), s.fault = none →
    ((∀ k ≤ cycles, (run k s).fault = none) ∧ ∀ k < cycles, step (run k s) = .next (run (k + 1) s)) ∨
    (∃ k, 1 ≤ k ∧ k ≤ cycles ∧ (∀ j < k, (run j s).fault = none) ∧ (∀ j < k, step (run j s) = .next (run (j + 1) s)) ∧
      (run k s).fault ≠ none ∧ run cycles s = run k s)

/-! ### Beside the core -/

/-- ALU32 of opcodes 0 to 7 is ADD and SUB modulo 2^32, AND, OR, XOR, shift-left, shift-right (for amounts up
to 31, zeros shifted in; a larger amount is refused, never a value) and unsigned less-than with result 0
or 1. (The zeros shifted in from the left are an inference the spec marks as derived, and the result for
an amount of 32 or more is its open parameter SHIFT32_POLICY, decision D18; the model's choice in both is
log entry 11.)
(45_variant32.md, the ALU table and the shifts.) -/
def Obligations.Alu32Table : Prop :=
  ∀ a b : BitVec 32,
    (∃ r, alu32 0 a b = .ok r ∧ r.toNat = (a.toNat + b.toNat) % 2 ^ 32) ∧
    (∃ r, alu32 1 a b = .ok r ∧ r.toNat = (2 ^ 32 + a.toNat - b.toNat) % 2 ^ 32) ∧
    alu32 2 a b = .ok (a &&& b) ∧ alu32 3 a b = .ok (a ||| b) ∧ alu32 4 a b = .ok (a ^^^ b) ∧
    (b.toNat < 32 → ∃ l r, alu32 5 a b = .ok l ∧ alu32 6 a b = .ok r ∧
      l.toNat = a.toNat * 2 ^ b.toNat % 2 ^ 32 ∧ r.toNat = a.toNat / 2 ^ b.toNat) ∧
    (32 ≤ b.toNat → alu32 5 a b = .error (.shift32AmountOpen b) ∧ alu32 6 a b = .error (.shift32AmountOpen b)) ∧
    (∃ r, alu32 7 a b = .ok r ∧ (a.toNat < b.toNat → r.toNat = 1) ∧ (b.toNat ≤ a.toNat → r.toNat = 0))

/-- Launching the 32-bit variant is refused by name for every parameter; launching the 16-bit variant answers
its launch state.
(45_variant32.md, the last rule; 00_scope.md section 1.) -/
def Obligations.Variant32IsRefused : Prop :=
  ∀ p : Params, launchVariant .word32 p = .refused .variant32HasNoEncoding ∧
    launchVariant .word16 p = .next (launch p)

/-- For every list of words, the image whose lines are their sixteen base-2 digits, most significant first,
each followed by any inline // comment, parses to exactly those words; and a line that begins with //
after white space takes no cell.
(30_encoding.md section 5.) -/
def Obligations.LoaderReadsBackBinaryLines : Prop :=
  (∀ (words : List Word) (comment : List Char),
    parseImage (words.map fun w => digits w ++ '/' :: '/' :: comment) = words ∧ parseImage (words.map digits) = words) ∧
  (∀ (blanks rest : List Char), (∀ c ∈ blanks, c.isWhitespace = true) → parseLine (blanks ++ '/' :: '/' :: rest) = none)
end

