-- ==== Sys2Proof/Laws/State.lean ====
section
/-! SUPPORT. What each update of the state leaves in each field. -/

namespace Sys2Proof.Machine

/-! ### The register file -/

@[simp] theorem RegFile.bracket_we (f : RegFile) (k : RegIdx) (v : Word) : (f.bracket k v).we = false := rfl

/-- A bracketed write always takes effect (10_state.md R14), whatever the latch was. -/
theorem RegFile.bracket_regs (f : RegFile) (k : RegIdx) (v : Word) :
    (f.bracket k v).regs = f.regs.set k.val v := rfl

theorem RegFile.read_bracket (f : RegFile) (k j : RegIdx) (v : Word) :
    (f.bracket k v).read j = if j = k then v else f.read j := by
  simp only [RegFile.read, RegFile.bracket_regs, Vector.getElem_set, Fin.ext_iff, eq_comm]

/-! ### `writeReg` -/

@[simp] theorem State.writeReg_n (s : State) (k : RegIdx) (v : Word) : (s.writeReg k v).n = s.n := rfl
@[simp] theorem State.writeReg_z (s : State) (k : RegIdx) (v : Word) : (s.writeReg k v).z = s.z := rfl
@[simp] theorem State.writeReg_imem (s : State) (k : RegIdx) (v : Word) : (s.writeReg k v).imem = s.imem := rfl
@[simp] theorem State.writeReg_dmem (s : State) (k : RegIdx) (v : Word) : (s.writeReg k v).dmem = s.dmem := rfl
@[simp] theorem State.writeReg_fault (s : State) (k : RegIdx) (v : Word) : (s.writeReg k v).fault = s.fault := rfl
@[simp] theorem State.writeReg_we (s : State) (k : RegIdx) (v : Word) : (s.writeReg k v).rf.we = false := rfl

theorem State.readReg_writeReg (s : State) (k j : RegIdx) (v : Word) :
    (s.writeReg k v).readReg j = if j = k then v else s.readReg j :=
  RegFile.read_bracket s.rf k j v

@[simp] theorem State.readReg_writeReg_same (s : State) (k : RegIdx) (v : Word) :
    (s.writeReg k v).readReg k = v := by simp [State.readReg_writeReg]

theorem State.readReg_writeReg_ne (s : State) {k j : RegIdx} (v : Word) (h : j ≠ k) :
    (s.writeReg k v).readReg j = s.readReg j := by simp [State.readReg_writeReg, h]

/-! ### `setFlags` -/

@[simp] theorem State.setFlags_rf (s : State) (r : Word) : (s.setFlags r).rf = s.rf := rfl
@[simp] theorem State.setFlags_n (s : State) (r : Word) : (s.setFlags r).n = negFlag r := rfl
@[simp] theorem State.setFlags_z (s : State) (r : Word) : (s.setFlags r).z = zeroFlag r := rfl
@[simp] theorem State.setFlags_imem (s : State) (r : Word) : (s.setFlags r).imem = s.imem := rfl
@[simp] theorem State.setFlags_dmem (s : State) (r : Word) : (s.setFlags r).dmem = s.dmem := rfl
@[simp] theorem State.setFlags_fault (s : State) (r : Word) : (s.setFlags r).fault = s.fault := rfl
@[simp] theorem State.readReg_setFlags (s : State) (r : Word) (k : RegIdx) :
    (s.setFlags r).readReg k = s.readReg k := rfl

/-! ### `raise` -/

@[simp] theorem State.raise_rf (s : State) (f : Fault) : (s.raise f).rf = s.rf := rfl
@[simp] theorem State.raise_n (s : State) (f : Fault) : (s.raise f).n = s.n := rfl
@[simp] theorem State.raise_z (s : State) (f : Fault) : (s.raise f).z = s.z := rfl
@[simp] theorem State.raise_imem (s : State) (f : Fault) : (s.raise f).imem = s.imem := rfl
@[simp] theorem State.raise_dmem (s : State) (f : Fault) : (s.raise f).dmem = s.dmem := rfl
@[simp] theorem State.raise_fault (s : State) (f : Fault) : (s.raise f).fault = some f := rfl
@[simp] theorem State.readReg_raise (s : State) (f : Fault) (k : RegIdx) :
    (s.raise f).readReg k = s.readReg k := rfl

/-! ### `advancePc` -/

@[simp] theorem State.advancePc_n (s : State) : s.advancePc.n = s.n := rfl
@[simp] theorem State.advancePc_z (s : State) : s.advancePc.z = s.z := rfl
@[simp] theorem State.advancePc_imem (s : State) : s.advancePc.imem = s.imem := rfl
@[simp] theorem State.advancePc_dmem (s : State) : s.advancePc.dmem = s.dmem := rfl
@[simp] theorem State.advancePc_fault (s : State) : s.advancePc.fault = s.fault := rfl
@[simp] theorem State.advancePc_we (s : State) : s.advancePc.rf.we = false := rfl

@[simp] theorem State.advancePc_pc (s : State) : s.advancePc.pc = s.pc + 1 :=
  State.readReg_writeReg_same s pcIndex (s.pc + 1)

theorem State.readReg_advancePc (s : State) {k : RegIdx} (h : k ≠ pcIndex) :
    s.advancePc.readReg k = s.readReg k :=
  State.readReg_writeReg_ne s (s.pc + 1) h

end Sys2Proof.Machine
end

