-- ==== Sys2Proof/Laws/Memory.lean ====
section
/-! SUPPORT. The laws of the memories: read after write, the canonical form is kept, what `memWrite` can
do. -/

namespace Sys2Proof.Machine

/-! ### Cell lists -/

theorem cellsGet_append (xs ys : List Cell) (a : Nat) :
    cellsGet (xs ++ ys) a = if a ∈ xs.map (·.1) then cellsGet xs a else cellsGet ys a := by
  induction xs with
  | nil => simp
  | cons c t ih =>
    obtain ⟨b, v⟩ := c
    by_cases h : b = a <;> simp_all [cellsGet, eq_comm]

theorem cellsGet_filter (p : Nat → Bool) (cells : List Cell) (a : Nat) :
    cellsGet (cells.filter fun c => p c.1) a = if p a then cellsGet cells a else 0#16 := by
  induction cells with
  | nil => simp [cellsGet]
  | cons c t ih =>
    obtain ⟨b, v⟩ := c
    by_cases hb : p b <;> by_cases h : b = a <;> simp_all [cellsGet]

theorem cellsGet_of_not_mem (cells : List Cell) (a : Nat) (h : a ∉ cells.map (·.1)) : cellsGet cells a = 0#16 := by
  induction cells with
  | nil => rfl
  | cons c t ih =>
    obtain ⟨b, v⟩ := c
    simp only [List.map_cons, List.mem_cons, not_or] at h
    simp [cellsGet, Ne.symm h.1, ih h.2]

/-- The Word written is the Word read, and every other index reads as before, in every cell list. -/
theorem cellsGet_cellsSet (cells : List Cell) (a b : Nat) (v : Word) :
    cellsGet (cellsSet cells a v) b = if b = a then v else cellsGet cells b := by
  unfold cellsSet
  rw [cellsGet_append, cellsGet_append]
  have below := cellsGet_filter (fun x => decide (x < a)) cells b
  have above := cellsGet_filter (fun x => decide (a < x)) cells b
  rcases Nat.lt_trichotomy b a with h | rfl | h
  · have hne : b ≠ a := by omega
    have hna : ¬ a < b := by omega
    by_cases hm : b ∈ (cells.filter fun c => decide (c.1 < a)).map (·.1)
    · simp [hm, below, h, hne]
    · have h0 := cellsGet_of_not_mem _ _ hm
      rw [below] at h0
      simp only [h, decide_true, if_true] at h0
      by_cases hv : v = 0#16 <;> simp_all
  · by_cases hv : v = 0#16
    · simp_all
    · simp_all [cellsGet]
  · have hne : b ≠ a := by omega
    have hnb : ¬ b < a := by omega
    by_cases hv : v = 0#16 <;> simp_all

/-! ### The canonical form -/

theorem cellsWf_mono (size : Nat) {lo lo' : Nat} (cells : List Cell) (h : cellsWf size lo cells = true)
    (hle : lo' ≤ lo) : cellsWf size lo' cells = true := by
  cases cells with
  | nil => rfl
  | cons c t =>
    simp only [cellsWf, Bool.and_eq_true, decide_eq_true_eq] at h ⊢
    exact ⟨⟨⟨by omega, h.1.1.2⟩, h.1.2⟩, h.2⟩

theorem cellsWf_size_mono {size size' : Nat} (hle : size ≤ size') (cells : List Cell) :
    ∀ lo, cellsWf size lo cells = true → cellsWf size' lo cells = true := by
  induction cells with
  | nil => intros; rfl
  | cons c t ih =>
    intro lo h
    simp only [cellsWf, Bool.and_eq_true, decide_eq_true_eq] at h ⊢
    exact ⟨⟨⟨h.1.1.1, by omega⟩, h.1.2⟩, ih _ h.2⟩

theorem cellsWf_le_of_mem {size : Nat} {cells : List Cell} :
    ∀ {lo : Nat}, cellsWf size lo cells = true → ∀ c ∈ cells, lo ≤ c.1 := by
  induction cells with
  | nil => intro _ _ c hc; cases hc
  | cons d t ih =>
    intro lo h c hc
    simp only [cellsWf, Bool.and_eq_true, decide_eq_true_eq] at h
    rcases List.mem_cons.1 hc with rfl | ht
    · exact h.1.1.1
    · exact Nat.le_trans (by omega) (ih h.2 c ht)

theorem cellsSet_cons_lt {b a : Nat} (w v : Word) (t : List Cell) (h : b < a) :
    cellsSet ((b, w) :: t) a v = (b, w) :: cellsSet t a v := by
  simp [cellsSet, h, Nat.not_lt.2 (Nat.le_of_lt h)]

theorem cellsSet_eq_above {size lo a : Nat} (v : Word) {cells : List Cell} (h : cellsWf size lo cells = true)
    (ha : a < lo) : cellsSet cells a v = (if v = 0#16 then [] else [(a, v)]) ++ cells := by
  have hmem := cellsWf_le_of_mem h
  have hnone : cells.filter (fun c => decide (c.1 < a)) = [] := by
    rw [List.filter_eq_nil_iff]
    intro c hc
    have := hmem c hc
    simp; omega
  have hall : cells.filter (fun c => decide (a < c.1)) = cells := by
    rw [List.filter_eq_self]
    intro c hc
    have := hmem c hc
    simp; omega
  simp [cellsSet, hnone, hall]

theorem cellsWf_cellsSet {size a : Nat} (v : Word) (cells : List Cell) (ha : a < size) :
    ∀ lo, lo ≤ a → cellsWf size lo cells = true → cellsWf size lo (cellsSet cells a v) = true := by
  induction cells with
  | nil =>
    intro lo hlo _
    by_cases hv : v = 0#16 <;> simp [cellsSet, cellsWf, hv, hlo, ha]
  | cons c t ih =>
    intro lo hlo h
    obtain ⟨b, w⟩ := c
    have hc := h
    simp only [cellsWf, Bool.and_eq_true, decide_eq_true_eq] at hc
    rcases Nat.lt_trichotomy b a with hb | rfl | hb
    · rw [cellsSet_cons_lt w v t hb]
      simp only [cellsWf, Bool.and_eq_true, decide_eq_true_eq]
      exact ⟨⟨⟨hc.1.1.1, hc.1.1.2⟩, hc.1.2⟩, ih (b + 1) hb hc.2⟩
    · have : cellsSet ((b, w) :: t) b v = cellsSet t b v := by simp [cellsSet]
      rw [this, cellsSet_eq_above v hc.2 (by omega)]
      by_cases hv : v = 0#16
      · simpa [hv] using cellsWf_mono size t hc.2 (by omega)
      · simp [hv, cellsWf, hlo, ha, hc.2]
    · have h' : cellsWf size (a + 1) ((b, w) :: t) = true := by
        simp only [cellsWf, Bool.and_eq_true, decide_eq_true_eq]
        exact ⟨⟨⟨by omega, hc.1.1.2⟩, hc.1.2⟩, hc.2⟩
      rw [cellsSet_eq_above v h' (by omega)]
      by_cases hv : v = 0#16
      · simpa [hv] using h
      · simp only [hv, if_false, List.singleton_append, cellsWf]
        simpa [hlo, ha, hv, cellsWf] using h'

/-- Placing words one after another gives a canonical list. -/
theorem cellsWf_cellsOfWords (size : Nat) (words : List Word) :
    ∀ a, a + words.length ≤ size → cellsWf size a (cellsOfWords a words) = true := by
  induction words with
  | nil => intros; rfl
  | cons v t ih =>
    intro a h
    simp only [List.length_cons] at h
    have := ih (a + 1) (by omega)
    by_cases hv : v = 0#16
    · simpa [cellsOfWords, hv] using cellsWf_mono size _ this (by omega)
    · simp only [cellsOfWords, hv, if_false, cellsWf, this, Bool.and_eq_true, decide_eq_true_eq]
      exact ⟨⟨⟨Nat.le_refl a, by omega⟩, hv⟩, trivial⟩

/-! ### Memories: every operation keeps the canonical form -/

theorem Memory.wf_setWriteEnable (m : Memory) (b : Bool) (h : m.wf = true) : (m.setWriteEnable b).wf = true := h

theorem Memory.wf_write {m m' : Memory} {a v : Word} (h : m.wf = true) (hw : m.write a v = some m') :
    m'.wf = true := by
  unfold Memory.write at hw
  split at hw
  · rename_i ha
    cases hw
    split
    · exact cellsWf_cellsSet v m.cells ha 0 (Nat.zero_le _) h
    · exact h
  · cases hw

theorem Memory.wf_place {m : Memory} (a w : Word) (h : m.wf = true) : (m.place a w).wf = true :=
  cellsWf_cellsSet (size := max m.size (a.toNat + 1)) w m.cells (by omega) 0 (Nat.zero_le _)
    (cellsWf_size_mono (by omega) m.cells 0 h)

theorem Memory.wf_ofWords {size : Nat} {words : List Word} (h : words.length ≤ size) :
    (Memory.ofWords size words).wf = true :=
  cellsWf_cellsOfWords size words 0 (by omega)

/-! ### `MemRead` and `MemWrite` -/

/-- Everything `MemWrite` can do: the address is in range and one cell is replaced, latch low, or it is
out of range and nothing happens. -/
theorem State.memWrite_eq (s : State) (a v : Word) :
    s.memWrite a v = if a.toNat < s.dmem.size then
      some { s with dmem := { s.dmem with cells := cellsSet s.dmem.cells a.toNat v, we := false } } else none := by
  unfold State.memWrite
  split
  · rename_i h
    simp [Memory.write, Memory.setWriteEnable, h]
  · rfl

theorem State.memWrite_cases {s t : State} {a v : Word} (h : s.memWrite a v = some t) :
    a.toNat < s.dmem.size ∧
      t = { s with dmem := { s.dmem with cells := cellsSet s.dmem.cells a.toNat v, we := false } } := by
  rw [State.memWrite_eq] at h
  split at h
  · rename_i ha
    exact ⟨ha, (Option.some.inj h).symm⟩
  · cases h

/-- A read after `MemWrite` gives the Word written at its index and what was there before elsewhere. -/
theorem State.memRead_memWrite {s t : State} {a v : Word} (h : s.memWrite a v = some t) (b : Word) :
    t.memRead b = if b = a then some v else s.memRead b := by
  obtain ⟨ha, rfl⟩ := State.memWrite_cases h
  simp only [State.memRead, Memory.read, cellsGet_cellsSet]
  by_cases hb : b = a
  · subst hb; simp [ha]
  · have : b.toNat ≠ a.toNat := fun e => hb (BitVec.eq_of_toNat_eq e)
    simp [hb, this]

theorem State.memRead_isSome (s : State) (a : Word) : (s.memRead a).isSome = decide (a.toNat < s.dmem.size) := by
  unfold State.memRead Memory.read
  split <;> simp_all

end Sys2Proof.Machine
end

