-- ==== Sys2Proof/Laws/Exec.lean ====
section
/-! SUPPORT. Everything the two execution paths and `exec` can do, said once. -/

namespace Sys2Proof.Machine

/-! ### The ALU -/

/-- The ALU faults exactly on a division or remainder by zero. -/
theorem alu16_error_iff (op : AluOp) (a b : Word) (d : DivOp) :
    alu16 op a b = .error d ↔ b = 0#16 ∧ (op = .div ∧ d = .div ∨ op = .rem ∧ d = .rem) := by
  cases op <;> cases d <;> by_cases hb : b = 0#16 <;> simp [alu16, hb]

theorem addressAluOp_code (o : AddrOp) : (addressAluOp o).code = 0b010 ||| o.code := by cases o <;> rfl

/-- The effective address is the result of an ALU invocation (43_memory_manipulation.md R138). -/
theorem alu16_addressAluOp (o : AddrOp) (a b : Word) : alu16 (addressAluOp o) a b = .ok (effectiveAddress o a b) := by
  cases o <;> rfl

/-- An ALU result never sets both flags (10_state.md R18). -/
theorem negFlag_zeroFlag (r : Word) : ¬(negFlag r = true ∧ zeroFlag r = true) := by
  rintro ⟨hn, hz⟩
  simp only [zeroFlag, decide_eq_true_eq] at hz
  subst hz
  simp [negFlag] at hn

/-! ### The gate -/

theorem gated_pass {c : Cond} {s : State} (k : State) (h : condex c s.n s.z = true) : gated c s k = k := by
  simp [gated, h]

theorem gated_skip {c : Cond} {s : State} (k : State) (h : condex c s.n s.z = false) : gated c s k = s := by
  simp [gated, h]

/-! ### The data-processing path -/

theorem dataProcessing_ok {op : AluOp} {c : Cond} {rn : RegIdx} {b : OperandB} {s : State} {r : Word}
    (rd : RegIdx) (hc : condex c s.n s.z = true) (hr : alu16 op (operandA s rn) (operandB s b) = .ok r) :
    dataProcessing op c rd rn b s = (s.setFlags r).writeReg rd r := by
  simp [dataProcessing, gated_pass _ hc, hr]

theorem dataProcessing_error {op : AluOp} {c : Cond} {rn : RegIdx} {b : OperandB} {s : State} {d : DivOp}
    (rd : RegIdx) (hc : condex c s.n s.z = true) (hr : alu16 op (operandA s rn) (operandB s b) = .error d) :
    dataProcessing op c rd rn b s =
      s.raise (.divideByZero d (operandA s rn) s.pcOld (encodeFields (dpFields op c rd rn b))) := by
  simp [dataProcessing, gated_pass _ hc, hr]

/-- Everything a data-processing instruction can do: skip, write the result and its flags, or fault. -/
theorem dataProcessing_cases (op : AluOp) (c : Cond) (rd rn : RegIdx) (b : OperandB) (s : State) :
    (condex c s.n s.z = false ∧ dataProcessing op c rd rn b s = s) ∨
    (∃ r, condex c s.n s.z = true ∧ alu16 op (operandA s rn) (operandB s b) = .ok r ∧
      dataProcessing op c rd rn b s = (s.setFlags r).writeReg rd r) ∨
    (∃ d, condex c s.n s.z = true ∧ alu16 op (operandA s rn) (operandB s b) = .error d ∧
      dataProcessing op c rd rn b s =
        s.raise (.divideByZero d (operandA s rn) s.pcOld (encodeFields (dpFields op c rd rn b)))) := by
  cases hc : condex c s.n s.z with
  | false => exact .inl ⟨rfl, gated_skip _ hc⟩
  | true =>
    cases hr : alu16 op (operandA s rn) (operandB s b) with
    | ok r => exact .inr (.inl ⟨r, rfl, rfl, dataProcessing_ok rd hc hr⟩)
    | error d => exact .inr (.inr ⟨d, rfl, rfl, dataProcessing_error rd hc hr⟩)

/-! ### The memory-manipulation path -/

@[simp] theorem addressStage_n (o : MemOp) (rn : RegIdx) (a : Word) (s : State) :
    (addressStage o rn a s).n = negFlag a := by unfold addressStage; split <;> rfl
@[simp] theorem addressStage_z (o : MemOp) (rn : RegIdx) (a : Word) (s : State) :
    (addressStage o rn a s).z = zeroFlag a := by unfold addressStage; split <;> rfl
@[simp] theorem addressStage_imem (o : MemOp) (rn : RegIdx) (a : Word) (s : State) :
    (addressStage o rn a s).imem = s.imem := by unfold addressStage; split <;> rfl
@[simp] theorem addressStage_dmem (o : MemOp) (rn : RegIdx) (a : Word) (s : State) :
    (addressStage o rn a s).dmem = s.dmem := by unfold addressStage; split <;> rfl
@[simp] theorem addressStage_fault (o : MemOp) (rn : RegIdx) (a : Word) (s : State) :
    (addressStage o rn a s).fault = s.fault := by unfold addressStage; split <;> rfl

/-- The address stage writes the address to `x[rn]` if it writes back, and no other register. -/
theorem readReg_addressStage (o : MemOp) (rn k : RegIdx) (a : Word) (s : State) :
    (addressStage o rn a s).readReg k = if o.writeBack = true ∧ k = rn then a else s.readReg k := by
  unfold addressStage
  split <;> simp_all [State.readReg_writeReg]

/-- Everything a memory-manipulation instruction can do: skip; load; store; or, after the address stage,
fault. -/
theorem memoryManipulation_cases (o : MemOp) (c : Cond) (rd rn : RegIdx) (b : OperandB) (s : State) :
    let addr := effectiveAddress o.operation (operandA s rn) (operandB s b)
    let s₁ := addressStage o rn addr s
    (condex c s.n s.z = false ∧ memoryManipulation o c rd rn b s = s) ∨
    (∃ v, condex c s.n s.z = true ∧ o.write = false ∧ s.memRead addr = some v ∧
      memoryManipulation o c rd rn b s = s₁.writeReg rd v) ∨
    (∃ t, condex c s.n s.z = true ∧ o.write = true ∧ s₁.memWrite addr (s₁.readReg rd) = some t ∧
      memoryManipulation o c rd rn b s = t) ∨
    (condex c s.n s.z = true ∧ s.dmem.size ≤ addr.toNat ∧
      memoryManipulation o c rd rn b s =
        s₁.raise (.dmemIndexOutOfRange addr s.pcOld (encodeFields (mmFields o c rd rn b)))) := by
  intro addr s₁
  have hd : s₁.dmem = s.dmem := addressStage_dmem o rn addr s
  cases hc : condex c s.n s.z with
  | false => exact .inl ⟨rfl, gated_skip _ hc⟩
  | true =>
    have hm : memoryManipulation o c rd rn b s =
        accessStage o rd addr (.dmemIndexOutOfRange addr s.pcOld (encodeFields (mmFields o c rd rn b))) s₁ :=
      gated_pass _ hc
    refine .inr ?_
    rw [hm]
    by_cases hr : addr.toNat < s.dmem.size
    · cases hw : o.write with
      | false =>
        refine .inl ⟨cellsGet s.dmem.cells addr.toNat, rfl, rfl, ?_, ?_⟩
        · simp [State.memRead, Memory.read, hr]
        · simp [accessStage, hw, State.memRead, Memory.read, hd, hr]
      | true =>
        have := State.memWrite_eq s₁ addr (s₁.readReg rd)
        rw [hd, if_pos hr] at this
        exact .inr (.inl ⟨_, rfl, rfl, this, by simp [accessStage, hw, this]⟩)
    · refine .inr (.inr ⟨rfl, by omega, ?_⟩)
      have hn := State.memWrite_eq s₁ addr (s₁.readReg rd)
      rw [hd, if_neg hr] at hn
      cases hw : o.write <;> simp [accessStage, hw, State.memRead, Memory.read, hd, hr, hn]

/-! ### Every instruction takes one of the two paths -/

theorem exec_dpInstr (op : AluOp) (c : Cond) (rd rn : RegIdx) (b : OperandB) (s : State) :
    exec (dpInstr op c rd rn b) s = .next (dataProcessing op c rd rn b s) := by
  cases op <;> cases b <;> rfl

theorem exec_mmInstr (o : MemOp) (c : Cond) (rd rn : RegIdx) (b : OperandB) (s : State) :
    exec (mmInstr o c rd rn b) s = .next (memoryManipulation o c rd rn b s) := by
  obtain ⟨w, wb, op⟩ := o
  cases w <;> cases wb <;> cases op <;> cases b <;> rfl

/-- Each of the 32 instructions is a data-processing or a memory-manipulation instruction
(40_cycle_and_decode.md R77, "there is no third path"). -/
theorem instr_cases (i : Instr) :
    (∃ op c rd rn b, i = dpInstr op c rd rn b) ∨ (∃ o c rd rn b, i = mmInstr o c rd rn b) := by
  cases i
  case andReg c rd rn m => exact .inl ⟨.and, c, rd, rn, .reg m, rfl⟩
  case andLit c rd rn k => exact .inl ⟨.and, c, rd, rn, .lit k, rfl⟩
  case orReg c rd rn m => exact .inl ⟨.or, c, rd, rn, .reg m, rfl⟩
  case orLit c rd rn k => exact .inl ⟨.or, c, rd, rn, .lit k, rfl⟩
  case addReg c rd rn m => exact .inl ⟨.add, c, rd, rn, .reg m, rfl⟩
  case addLit c rd rn k => exact .inl ⟨.add, c, rd, rn, .lit k, rfl⟩
  case subReg c rd rn m => exact .inl ⟨.sub, c, rd, rn, .reg m, rfl⟩
  case subLit c rd rn k => exact .inl ⟨.sub, c, rd, rn, .lit k, rfl⟩
  case mulReg c rd rn m => exact .inl ⟨.mul, c, rd, rn, .reg m, rfl⟩
  case mulLit c rd rn k => exact .inl ⟨.mul, c, rd, rn, .lit k, rfl⟩
  case divReg c rd rn m => exact .inl ⟨.div, c, rd, rn, .reg m, rfl⟩
  case divLit c rd rn k => exact .inl ⟨.div, c, rd, rn, .lit k, rfl⟩
  case remReg c rd rn m => exact .inl ⟨.rem, c, rd, rn, .reg m, rfl⟩
  case remLit c rd rn k => exact .inl ⟨.rem, c, rd, rn, .lit k, rfl⟩
  case xorReg c rd rn m => exact .inl ⟨.xor, c, rd, rn, .reg m, rfl⟩
  case xorLit c rd rn k => exact .inl ⟨.xor, c, rd, rn, .lit k, rfl⟩
  case ldaddReg c rd rn m => exact .inr ⟨⟨false, false, .add⟩, c, rd, rn, .reg m, rfl⟩
  case ldaddLit c rd rn k => exact .inr ⟨⟨false, false, .add⟩, c, rd, rn, .lit k, rfl⟩
  case ldsubReg c rd rn m => exact .inr ⟨⟨false, false, .sub⟩, c, rd, rn, .reg m, rfl⟩
  case ldsubLit c rd rn k => exact .inr ⟨⟨false, false, .sub⟩, c, rd, rn, .lit k, rfl⟩
  case ldaddwReg c rd rn m => exact .inr ⟨⟨false, true, .add⟩, c, rd, rn, .reg m, rfl⟩
  case ldaddwLit c rd rn k => exact .inr ⟨⟨false, true, .add⟩, c, rd, rn, .lit k, rfl⟩
  case ldsubwReg c rd rn m => exact .inr ⟨⟨false, true, .sub⟩, c, rd, rn, .reg m, rfl⟩
  case ldsubwLit c rd rn k => exact .inr ⟨⟨false, true, .sub⟩, c, rd, rn, .lit k, rfl⟩
  case staddReg c rd rn m => exact .inr ⟨⟨true, false, .add⟩, c, rd, rn, .reg m, rfl⟩
  case staddLit c rd rn k => exact .inr ⟨⟨true, false, .add⟩, c, rd, rn, .lit k, rfl⟩
  case stsubReg c rd rn m => exact .inr ⟨⟨true, false, .sub⟩, c, rd, rn, .reg m, rfl⟩
  case stsubLit c rd rn k => exact .inr ⟨⟨true, false, .sub⟩, c, rd, rn, .lit k, rfl⟩
  case staddwReg c rd rn m => exact .inr ⟨⟨true, true, .add⟩, c, rd, rn, .reg m, rfl⟩
  case staddwLit c rd rn k => exact .inr ⟨⟨true, true, .add⟩, c, rd, rn, .lit k, rfl⟩
  case stsubwReg c rd rn m => exact .inr ⟨⟨true, true, .sub⟩, c, rd, rn, .reg m, rfl⟩
  case stsubwLit c rd rn k => exact .inr ⟨⟨true, true, .sub⟩, c, rd, rn, .lit k, rfl⟩

/-- Every instruction answers a next state in every state. -/
theorem exec_next (i : Instr) (s : State) : ∃ t, exec i s = .next t := by
  rcases instr_cases i with ⟨op, c, rd, rn, b, rfl⟩ | ⟨o, c, rd, rn, b, rfl⟩
  · exact ⟨_, exec_dpInstr op c rd rn b s⟩
  · exact ⟨_, exec_mmInstr o c rd rn b s⟩

theorem dpInstr_fields (op : AluOp) (c : Cond) (rd rn : RegIdx) (b : OperandB) :
    (dpInstr op c rd rn b).fields = dpFields op c rd rn b := by
  cases op <;> cases b <;> rfl

theorem mmInstr_fields (o : MemOp) (c : Cond) (rd rn : RegIdx) (b : OperandB) :
    (mmInstr o c rd rn b).fields = mmFields o c rd rn b := by
  obtain ⟨w, wb, op⟩ := o
  cases w <;> cases wb <;> cases op <;> cases b <;> rfl

theorem dpInstr_cond (op : AluOp) (c : Cond) (rd rn : RegIdx) (b : OperandB) : (dpInstr op c rd rn b).cond = c := by
  cases op <;> cases b <;> rfl

theorem mmInstr_cond (o : MemOp) (c : Cond) (rd rn : RegIdx) (b : OperandB) : (mmInstr o c rd rn b).cond = c := by
  obtain ⟨w, wb, op⟩ := o
  cases w <;> cases wb <;> cases op <;> cases b <;> rfl

end Sys2Proof.Machine
end

