-- ==== Sys2Proof/Laws/PerInstr.lean ====
section
/-! SUPPORT. Facts about every instruction as syntax, one lemma per constructor. -/

namespace Sys2Proof.Laws

/-- The fields of the instruction are in their ranges (30_encoding.md R51, R53). -/
def FieldsInRange.Statement (i : Instr) : Prop := i.fields.wf = true

theorem cond_code_lt (c : Cond) : c.code < 4 := by cases c <;> decide

theorem aluOp_code_lt (op : AluOp) : op.code < 8 := by cases op <;> decide

theorem memOp_code_lt (o : MemOp) : o.code < 8 := by
  obtain ⟨w, wb, op⟩ := o
  cases w <;> cases wb <;> cases op <;> decide

theorem operandB_iBit_le (b : OperandB) : b.iBit ≤ 1 := by cases b <;> simp [OperandB.iBit]

theorem operandB_src2_lt (b : OperandB) : b.src2 < 8 := by
  cases b with
  | reg m => exact m.isLt
  | lit k => exact k.isLt

theorem fields_wf_dp (op : AluOp) (c : Cond) (rd rn : RegIdx) (b : OperandB) :
    (dpFields op c rd rn b).wf = true := by
  simp [dpFields, Fields.wf, cond_code_lt, aluOp_code_lt, operandB_iBit_le, operandB_src2_lt]

theorem fields_wf_mm (o : MemOp) (c : Cond) (rd rn : RegIdx) (b : OperandB) :
    (mmFields o c rd rn b).wf = true := by
  simp [mmFields, Fields.wf, cond_code_lt, memOp_code_lt, operandB_iBit_le, operandB_src2_lt]

theorem FieldsInRange.andReg (c : Cond) (rd rn rm : RegIdx) : FieldsInRange.Statement (.andReg c rd rn rm) :=
  fields_wf_dp _ c rd rn (.reg rm)

theorem FieldsInRange.andLit (c : Cond) (rd rn : RegIdx) (k : Lit) : FieldsInRange.Statement (.andLit c rd rn k) :=
  fields_wf_dp _ c rd rn (.lit k)

theorem FieldsInRange.orReg (c : Cond) (rd rn rm : RegIdx) : FieldsInRange.Statement (.orReg c rd rn rm) :=
  fields_wf_dp _ c rd rn (.reg rm)

theorem FieldsInRange.orLit (c : Cond) (rd rn : RegIdx) (k : Lit) : FieldsInRange.Statement (.orLit c rd rn k) :=
  fields_wf_dp _ c rd rn (.lit k)

theorem FieldsInRange.addReg (c : Cond) (rd rn rm : RegIdx) : FieldsInRange.Statement (.addReg c rd rn rm) :=
  fields_wf_dp _ c rd rn (.reg rm)

theorem FieldsInRange.addLit (c : Cond) (rd rn : RegIdx) (k : Lit) : FieldsInRange.Statement (.addLit c rd rn k) :=
  fields_wf_dp _ c rd rn (.lit k)

theorem FieldsInRange.subReg (c : Cond) (rd rn rm : RegIdx) : FieldsInRange.Statement (.subReg c rd rn rm) :=
  fields_wf_dp _ c rd rn (.reg rm)

theorem FieldsInRange.subLit (c : Cond) (rd rn : RegIdx) (k : Lit) : FieldsInRange.Statement (.subLit c rd rn k) :=
  fields_wf_dp _ c rd rn (.lit k)

theorem FieldsInRange.mulReg (c : Cond) (rd rn rm : RegIdx) : FieldsInRange.Statement (.mulReg c rd rn rm) :=
  fields_wf_dp _ c rd rn (.reg rm)

theorem FieldsInRange.mulLit (c : Cond) (rd rn : RegIdx) (k : Lit) : FieldsInRange.Statement (.mulLit c rd rn k) :=
  fields_wf_dp _ c rd rn (.lit k)

theorem FieldsInRange.divReg (c : Cond) (rd rn rm : RegIdx) : FieldsInRange.Statement (.divReg c rd rn rm) :=
  fields_wf_dp _ c rd rn (.reg rm)

theorem FieldsInRange.divLit (c : Cond) (rd rn : RegIdx) (k : Lit) : FieldsInRange.Statement (.divLit c rd rn k) :=
  fields_wf_dp _ c rd rn (.lit k)

theorem FieldsInRange.remReg (c : Cond) (rd rn rm : RegIdx) : FieldsInRange.Statement (.remReg c rd rn rm) :=
  fields_wf_dp _ c rd rn (.reg rm)

theorem FieldsInRange.remLit (c : Cond) (rd rn : RegIdx) (k : Lit) : FieldsInRange.Statement (.remLit c rd rn k) :=
  fields_wf_dp _ c rd rn (.lit k)

theorem FieldsInRange.xorReg (c : Cond) (rd rn rm : RegIdx) : FieldsInRange.Statement (.xorReg c rd rn rm) :=
  fields_wf_dp _ c rd rn (.reg rm)

theorem FieldsInRange.xorLit (c : Cond) (rd rn : RegIdx) (k : Lit) : FieldsInRange.Statement (.xorLit c rd rn k) :=
  fields_wf_dp _ c rd rn (.lit k)

theorem FieldsInRange.ldaddReg (c : Cond) (rd rn rm : RegIdx) : FieldsInRange.Statement (.ldaddReg c rd rn rm) :=
  fields_wf_mm _ c rd rn (.reg rm)

theorem FieldsInRange.ldaddLit (c : Cond) (rd rn : RegIdx) (k : Lit) : FieldsInRange.Statement (.ldaddLit c rd rn k) :=
  fields_wf_mm _ c rd rn (.lit k)

theorem FieldsInRange.ldsubReg (c : Cond) (rd rn rm : RegIdx) : FieldsInRange.Statement (.ldsubReg c rd rn rm) :=
  fields_wf_mm _ c rd rn (.reg rm)

theorem FieldsInRange.ldsubLit (c : Cond) (rd rn : RegIdx) (k : Lit) : FieldsInRange.Statement (.ldsubLit c rd rn k) :=
  fields_wf_mm _ c rd rn (.lit k)

theorem FieldsInRange.ldaddwReg (c : Cond) (rd rn rm : RegIdx) : FieldsInRange.Statement (.ldaddwReg c rd rn rm) :=
  fields_wf_mm _ c rd rn (.reg rm)

theorem FieldsInRange.ldaddwLit (c : Cond) (rd rn : RegIdx) (k : Lit) : FieldsInRange.Statement (.ldaddwLit c rd rn k) :=
  fields_wf_mm _ c rd rn (.lit k)

theorem FieldsInRange.ldsubwReg (c : Cond) (rd rn rm : RegIdx) : FieldsInRange.Statement (.ldsubwReg c rd rn rm) :=
  fields_wf_mm _ c rd rn (.reg rm)

theorem FieldsInRange.ldsubwLit (c : Cond) (rd rn : RegIdx) (k : Lit) : FieldsInRange.Statement (.ldsubwLit c rd rn k) :=
  fields_wf_mm _ c rd rn (.lit k)

theorem FieldsInRange.staddReg (c : Cond) (rd rn rm : RegIdx) : FieldsInRange.Statement (.staddReg c rd rn rm) :=
  fields_wf_mm _ c rd rn (.reg rm)

theorem FieldsInRange.staddLit (c : Cond) (rd rn : RegIdx) (k : Lit) : FieldsInRange.Statement (.staddLit c rd rn k) :=
  fields_wf_mm _ c rd rn (.lit k)

theorem FieldsInRange.stsubReg (c : Cond) (rd rn rm : RegIdx) : FieldsInRange.Statement (.stsubReg c rd rn rm) :=
  fields_wf_mm _ c rd rn (.reg rm)

theorem FieldsInRange.stsubLit (c : Cond) (rd rn : RegIdx) (k : Lit) : FieldsInRange.Statement (.stsubLit c rd rn k) :=
  fields_wf_mm _ c rd rn (.lit k)

theorem FieldsInRange.staddwReg (c : Cond) (rd rn rm : RegIdx) : FieldsInRange.Statement (.staddwReg c rd rn rm) :=
  fields_wf_mm _ c rd rn (.reg rm)

theorem FieldsInRange.staddwLit (c : Cond) (rd rn : RegIdx) (k : Lit) : FieldsInRange.Statement (.staddwLit c rd rn k) :=
  fields_wf_mm _ c rd rn (.lit k)

theorem FieldsInRange.stsubwReg (c : Cond) (rd rn rm : RegIdx) : FieldsInRange.Statement (.stsubwReg c rd rn rm) :=
  fields_wf_mm _ c rd rn (.reg rm)

theorem FieldsInRange.stsubwLit (c : Cond) (rd rn : RegIdx) (k : Lit) : FieldsInRange.Statement (.stsubwLit c rd rn k) :=
  fields_wf_mm _ c rd rn (.lit k)

end Sys2Proof.Laws
end

