-- ==== Sys2Proof/Laws/Step.lean ====
section
/-! SUPPORT. Everything a step can do, said once. -/

namespace Sys2Proof.Machine

theorem State.fetch_of_some {s : State} {w : Word} (h : s.iFetch s.pc = some w) : s.fetch = .ok (w, s.advancePc) := by
  have h' : s.advancePc.iFetch s.pc = some w := h
  simp [State.fetch, h']

theorem State.fetch_of_none {s : State} (h : s.iFetch s.pc = none) :
    s.fetch = .error (s.advancePc.raise (.imemIndexOutOfRange s.pc)) := by
  have h' : s.advancePc.iFetch s.pc = none := h
  simp [State.fetch, h']

/-- The five things a step can be: no step at all, a fetch fault, an instruction (or, never for a Word, a
record of fields that is none). -/
theorem step_cases (s : State) :
    (∃ f, s.fault = some f ∧ step s = .fault f) ∨
    (s.fault = none ∧ s.iFetch s.pc = none ∧ step s = .next (s.advancePc.raise (.imemIndexOutOfRange s.pc))) ∨
    (∃ w i, s.fault = none ∧ s.iFetch s.pc = some w ∧ decode w = .ok i ∧ step s = exec i s.advancePc) ∨
    (∃ w e, s.fault = none ∧ s.iFetch s.pc = some w ∧ decode w = .error e ∧ step s = rejectFields e s.advancePc) := by
  cases hf : s.fault with
  | some f => exact .inl ⟨f, rfl, by simp [step, hf]⟩
  | none =>
    refine .inr ?_
    cases hw : s.iFetch s.pc with
    | none => exact .inl ⟨rfl, rfl, by simp [step, hf, State.fetch_of_none hw]⟩
    | some w =>
      refine .inr ?_
      cases hd : decode w with
      | ok i => exact .inl ⟨w, i, rfl, rfl, hd, by simp [step, hf, State.fetch_of_some hw, hd]⟩
      | error e => exact .inr ⟨w, e, rfl, rfl, hd, by simp [step, hf, State.fetch_of_some hw, hd]⟩

/-! ### Runs -/

@[simp] theorem run_zero (s : State) : run 0 s = s := rfl

theorem run_succ_next {s t : State} (k : Nat) (h : step s = .next t) : run (k + 1) s = run k t := by
  simp [run, h]

theorem run_succ_fault {s : State} {f : Fault} (k : Nat) (h : step s = .fault f) : run (k + 1) s = s := by
  simp [run, h]

theorem run_of_fault {s : State} {f : Fault} (h : s.fault = some f) : ∀ k, run k s = s
  | 0 => rfl
  | k + 1 => run_succ_fault (f := f) k (by simp [step, h])

/-- A run one step longer is that step from where the shorter run ends, if the step answers a next state; else it
ends where the shorter run ends. -/
theorem run_succ_last (k : Nat) : ∀ s : State,
    run (k + 1) s = match step (run k s) with
      | .next t => t
      | _ => run k s := by
  induction k with
  | zero => intro s; cases h : step s <;> simp [run, h]
  | succ k ih =>
    intro s
    cases h : step s with
    | next t => rw [run_succ_next _ h, ih t, run_succ_next _ h]
    | fault f => simp [run, h]
    | refused r => simp [run, h]

end Sys2Proof.Machine
end

