-- ==== Sys2Proof/Tests/Slice0.lean ====
section
/-! SUPPORT. The model's own tests: ill-formed terms are refused; every row of the opcode table decodes; single
steps of 95_test_vectors.md; a witness for the hypotheses of every statement that has some. Expected values
come from the spec's vectors (named in the docstrings) or from its rules by hand. -/

namespace Sys2Proof.Tests

open Sys2Proof Sys2Proof.Machine Sys2Proof.Claims

/-! ### Ill-formed terms are refused (30_encoding.md R53, 00_scope.md R6) -/

/-- A well-formed record of fields, all at their largest value. -/
def fullFields : Fields := { cond := 3, mem := 1, opcode := 7, rn := 7, rd := 7, i := 1, src2 := 7 }

theorem test_wf_accepts_full_fields : fullFields.wf = true := by decide
theorem test_wf_refuses_cond : { fullFields with cond := 4 }.wf = false := by decide
theorem test_wf_refuses_mem : { fullFields with mem := 2 }.wf = false := by decide
theorem test_wf_refuses_opcode : { fullFields with opcode := 8 }.wf = false := by decide
theorem test_wf_refuses_rn : { fullFields with rn := 8 }.wf = false := by decide
theorem test_wf_refuses_rd : { fullFields with rd := 8 }.wf = false := by decide
theorem test_wf_refuses_i : { fullFields with i := 2 }.wf = false := by decide
theorem test_wf_refuses_src2 : { fullFields with src2 := 8 }.wf = false := by decide

theorem test_wf_accepts_default_params : ({} : Params).wf = true := by decide
theorem test_wf_refuses_program_beyond_imem : ({ program := List.replicate 65537 0 } : Params).wf = false := by
  unfold Params.wf
  rw [List.length_replicate]
  decide
theorem test_wf_refuses_empty_dmem : ({ dmemSize := 0 } : Params).wf = false := by decide
theorem test_wf_refuses_dmem_beyond_words : ({ dmemSize := 65537 } : Params).wf = false := by decide
theorem test_wf_refuses_init_beyond_dmem : ({ dmemSize := 1, dmemInit := [1, 2] } : Params).wf = false := by decide

/-- The decoder of wider fields rejects by name (41_alu.md R102, 60_exceptions.md R185, 10_state.md R12). -/
theorem test_decode_rejects_by_name :
    decodeFields { fullFields with cond := 4 } = .error (.invalidCondition 4) ∧
    decodeFields { fullFields with mem := 0, opcode := 8 } = .error (.invalidOpcode 8) ∧
    decodeFields { fullFields with opcode := 8 } = .error (.invalidOpcode 8) ∧
    decodeFields { fullFields with rd := 8 } = .error (.registerIndex 8) ∧
    decodeFields { fullFields with mem := 2 } = .error (.fieldOutOfRange 2) := by decide

/-! ### Every row of the opcode table decodes

Words written out as `cond_mem_opcode_rn_rd_i_src2` (30_encoding.md R51, R55). -/

/-- The eight data-processing rows, register form. -/
theorem test_decode_data_processing_register :
    decode 0b00_0_000_010_101_0_001 = .ok (.andReg .al 5 2 1) ∧
    decode 0b01_0_001_011_111_0_100 = .ok (.orReg .z 7 3 4) ∧
    decode 0b10_0_010_100_001_0_111 = .ok (.addReg .n 1 4 7) ∧
    decode 0b11_0_011_101_011_0_010 = .ok (.subReg .p 3 5 2) ∧
    decode 0b00_0_100_110_101_0_101 = .ok (.mulReg .al 5 6 5) ∧
    decode 0b01_0_101_111_111_0_000 = .ok (.divReg .z 7 7 0) ∧
    decode 0b10_0_110_000_001_0_011 = .ok (.remReg .n 1 0 3) ∧
    decode 0b11_0_111_001_011_0_110 = .ok (.xorReg .p 3 1 6) := by decide

/-- The eight data-processing rows, literal form. -/
theorem test_decode_data_processing_literal :
    decode 0b01_0_000_010_101_1_110 = .ok (.andLit .z 5 2 6) ∧
    decode 0b10_0_001_011_111_1_001 = .ok (.orLit .n 7 3 1) ∧
    decode 0b11_0_010_100_001_1_100 = .ok (.addLit .p 1 4 4) ∧
    decode 0b00_0_011_101_011_1_111 = .ok (.subLit .al 3 5 7) ∧
    decode 0b01_0_100_110_101_1_010 = .ok (.mulLit .z 5 6 2) ∧
    decode 0b10_0_101_111_111_1_101 = .ok (.divLit .n 7 7 5) ∧
    decode 0b11_0_110_000_001_1_000 = .ok (.remLit .p 1 0 0) ∧
    decode 0b00_0_111_001_011_1_011 = .ok (.xorLit .al 3 1 3) := by decide

/-- The eight memory-manipulation rows, register form. -/
theorem test_decode_memory_manipulation_register :
    decode 0b00_1_000_010_101_0_001 = .ok (.ldaddReg .al 5 2 1) ∧
    decode 0b01_1_001_011_111_0_100 = .ok (.ldsubReg .z 7 3 4) ∧
    decode 0b10_1_010_100_001_0_111 = .ok (.ldaddwReg .n 1 4 7) ∧
    decode 0b11_1_011_101_011_0_010 = .ok (.ldsubwReg .p 3 5 2) ∧
    decode 0b00_1_100_110_101_0_101 = .ok (.staddReg .al 5 6 5) ∧
    decode 0b01_1_101_111_111_0_000 = .ok (.stsubReg .z 7 7 0) ∧
    decode 0b10_1_110_000_001_0_011 = .ok (.staddwReg .n 1 0 3) ∧
    decode 0b11_1_111_001_011_0_110 = .ok (.stsubwReg .p 3 1 6) := by decide

/-- The eight memory-manipulation rows, literal form. -/
theorem test_decode_memory_manipulation_literal :
    decode 0b01_1_000_010_101_1_110 = .ok (.ldaddLit .z 5 2 6) ∧
    decode 0b10_1_001_011_111_1_001 = .ok (.ldsubLit .n 7 3 1) ∧
    decode 0b11_1_010_100_001_1_100 = .ok (.ldaddwLit .p 1 4 4) ∧
    decode 0b00_1_011_101_011_1_111 = .ok (.ldsubwLit .al 3 5 7) ∧
    decode 0b01_1_100_110_101_1_010 = .ok (.staddLit .z 5 6 2) ∧
    decode 0b10_1_101_111_111_1_101 = .ok (.stsubLit .n 7 7 5) ∧
    decode 0b11_1_110_000_001_1_000 = .ok (.staddwLit .p 1 0 0) ∧
    decode 0b00_1_111_001_011_1_011 = .ok (.stsubwLit .al 3 1 3) := by decide

/-- Worked words of the spec: the vectors of 95_test_vectors.md sections 1.6 and 2, encoded and decoded. -/
theorem test_encode_worked_words :
    encode (.addLit .al 1 0 5) = 0x081D ∧ encode (.staddLit .al 3 2 0) = 0x3138 ∧
    encode (.subLit .p 7 7 3) = 0xCFFB ∧ encode (.ldaddwReg .n 2 5 6) = 0xAAA6 ∧
    encode (.divLit .z 5 2 2) = 0x555A ∧ encode (.addReg .al 1 0 5) = 0x0815 := by decide

theorem test_table_words_decode :
    decodeTableWord 16 0x081D = some (.addLit .al 1 0 5) ∧ decodeTableWord 16 0xFFFF = some (.stsubwLit .p 7 7 7) ∧
    decodeTableWord 16 0 = some (.andReg .al 0 0 0) ∧ decodeTableWord 32 0x10000 = none := by decide

/-- Decode purity (95_test_vectors.md section 1.4): a failed condition is the no-op. -/
theorem test_gated_decode :
    decodeGated 0x481D false false = .ok none ∧ decodeGated 0x481D false true = .ok (some (.addLit .z 1 0 5)) := by
  decide

/-! ### Single steps

The state of a vector: reset, the listed registers, flags and data cells, the word where the step fetches. -/

/-- Registers `R0` to `R7`, the flags, `DMEM_SIZE` and the nonzero data cells; an empty instruction memory. -/
def start (regs : Vector Word 8) (n z : Bool) (size : Nat) (cells : List Cell) : State :=
  { State.reset with rf := { regs := regs, we := false }, n := n, z := z,
                     dmem := { size := size, cells := cells, we := false } }

/-- The state one step leaves with `w` placed where it fetches; `none` where the step answers no next state. -/
def after (s : State) (w : Nat) : Option State :=
  match step (s.withFetchWord 16 w) with
  | .next t => some t
  | _ => none

/-- What a vector lists of a state left without a fault: a register, `R7`, `N`, `Z`. -/
def seen (k : RegIdx) (o : Option State) : Option (Word × Word × Bool × Bool) :=
  o.bind fun t => if t.fault = none then some (t.readReg k, t.pc, t.n, t.z) else none

/-- What a vector lists of a store: the data cell, the register, `N`, `Z`. -/
def stored (a : Word) (k : RegIdx) (o : Option State) : Option (Option Word × Word × Bool × Bool) :=
  o.bind fun t => if t.fault = none then some (t.memRead a, t.readReg k, t.n, t.z) else none

/-- What a vector lists of a fault: the fault, a register, `R7`, `N`, `Z`. -/
def faulted (k : RegIdx) (o : Option State) : Option (Option Fault × Word × Word × Bool × Bool) :=
  o.map fun t => (t.fault, t.readReg k, t.pc, t.n, t.z)

/-- DP1 -/
theorem test_and_reg : seen 3 (after (start #v[0, 0xF0F, 0xFF, 0, 0, 0, 0, 0] false false 0x10000 []) 0x00B2) =
    some (0xF, 0x1, false, false) := by decide

/-- DP2 -/
theorem test_and_lit : seen 3 (after (start #v[0, 0xF0F, 0, 0, 0, 0, 0, 0] false false 0x10000 []) 0x00BE) =
    some (0x6, 0x1, false, false) := by decide

/-- DP3 -/
theorem test_and_lit_clears : seen 1 (after (start #v[0, 0xBEEF, 0, 0, 0, 0, 0, 0] true false 0x10000 []) 0x0098) =
    some (0x0, 0x1, false, true) := by decide

/-- DP4 -/
theorem test_or_reg : seen 4 (after (start #v[0, 0x8000, 0x1, 0, 0, 0, 0, 0] false false 0x10000 []) 0x04C2) =
    some (0x8001, 0x1, true, false) := by decide

/-- DP5 -/
theorem test_or_lit : seen 4 (after (start #v[0, 0, 0, 0, 0x8000, 0, 0, 0] true false 0x10000 []) 0x8649) =
    some (0x8001, 0x1, true, false) := by decide

/-- DP9 -/
theorem test_add_reg_wraps : seen 3 (after (start #v[0, 0xFFFF, 0x2, 0, 0, 0, 0, 0] false false 0x10000 []) 0x08B2) =
    some (0x1, 0x1, false, false) := by decide

/-- DP7, scenario S-A, run from reset -/
theorem test_add_lit : seen 1 (after State.reset 0x081D) =
    some (0x5, 0x1, false, false) := by decide

/-- CT1 -/
theorem test_add_reads_the_incremented_pc : seen 1 (after (start #v[0, 0, 0, 0, 0, 0, 0, 0x9] false false 0x10000 []) 0x0B98) =
    some (0xA, 0xA, false, false) := by decide

/-- DP10 -/
theorem test_sub_reg_wraps : seen 3 (after (start #v[0, 0x3, 0x7, 0, 0, 0, 0, 0] false false 0x10000 []) 0x0CB2) =
    some (0xFFFC, 0x1, true, false) := by decide

/-- DP11 -/
theorem test_sub_lit : seen 1 (after (start #v[0, 0x1, 0, 0, 0, 0, 0, 0] false false 0x10000 []) 0x0C99) =
    some (0x0, 0x1, false, true) := by decide

/-- CT6 -/
theorem test_sub_lit_branches_below_zero : seen 7 (after (start #v[0, 0, 0, 0, 0, 0, 0, 0] false false 0x10000 []) 0x0FFA) =
    some (0xFFFF, 0xFFFF, true, false) := by decide

/-- DP15 -/
theorem test_mul_reg_keeps_the_low_word : seen 3 (after (start #v[0, 0xFFFF, 0xFFFF, 0, 0, 0, 0, 0] false false 0x10000 []) 0x10B2) =
    some (0x1, 0x1, false, false) := by decide

/-- DP13 -/
theorem test_mul_lit : seen 3 (after (start #v[0, 0, 0, 0x2492, 0, 0, 0, 0] false false 0x10000 []) 0x11BF) =
    some (0xFFFE, 0x1, true, false) := by decide

/-- DP17 -/
theorem test_div_reg : seen 5 (after (start #v[0, 0x7, 0x8, 0, 0, 0, 0, 0] false false 0x10000 []) 0x14D2) =
    some (0x0, 0x1, false, true) := by decide

/-- DP16 -/
theorem test_div_lit_is_unsigned : seen 5 (after (start #v[0, 0xFFFF, 0, 0, 0, 0, 0, 0] false false 0x10000 []) 0x14DA) =
    some (0x7FFF, 0x1, false, false) := by decide

/-- DP19 -/
theorem test_rem_reg : seen 5 (after (start #v[0, 0x1234, 0xFF, 0, 0, 0, 0, 0] false false 0x10000 []) 0x18D2) =
    some (0x46, 0x1, false, false) := by decide

/-- DP18 -/
theorem test_rem_lit : seen 5 (after (start #v[0, 0xFFFF, 0, 0, 0, 0, 0, 0] false false 0x10000 []) 0x18DF) =
    some (0x1, 0x1, false, false) := by decide

/-- The row 1234, 00FF of 95_test_vectors.md section 2.1; XOR R3, R1, R2 -/
theorem test_xor_reg : seen 3 (after (start #v[0, 0x1234, 0xFF, 0, 0, 0, 0, 0] false false 0x10000 []) 0x1CB2) =
    some (0x12CB, 0x1, false, false) := by decide

/-- DP21 -/
theorem test_xor_lit : seen 1 (after (start #v[0, 0x8000, 0, 0, 0, 0, 0, 0] false true 0x10000 []) 0x5C9F) =
    some (0x8007, 0x1, true, false) := by decide

/-- DP22 -/
theorem test_xor_lit_skipped : seen 1 (after (start #v[0, 0x8000, 0, 0, 0, 0, 0, 0] false false 0x10000 []) 0x5C9F) =
    some (0x8000, 0x1, false, false) := by decide

/-- F1 -/
theorem test_div_lit_by_zero : faulted 2 (after (start #v[0, 0x6, 0xAAAA, 0, 0, 0, 0, 0] true false 0x10000 []) 0x14A8) =
    some (some (.divideByZero .div 6 0 0x14A8), 0xAAAA, 0x1, true, false) := by decide

/-- F3 -/
theorem test_rem_reg_by_zero : faulted 2 (after (start #v[0, 0x6, 0xAAAA, 0, 0, 0, 0, 0] false true 0x10000 []) 0x18A3) =
    some (some (.divideByZero .rem 6 0 0x18A3), 0xAAAA, 0x1, false, true) := by decide

/-- M1 -/
theorem test_ldadd_lit : seen 4 (after (start #v[0, 0, 0x10, 0, 0, 0, 0, 0] false false 0x10000 [(0x13, 0xBEEF)]) 0x214B) =
    some (0xBEEF, 0x1, false, false) := by decide

/-- M2 -/
theorem test_ldadd_reg_address_wraps : seen 4 (after (start #v[0, 0xFFF8, 0x10, 0, 0, 0, 0, 0] false false 0x10000 [(0x8, 0x1111)]) 0x2141) =
    some (0x1111, 0x1, false, false) := by decide

/-- CT11 -/
theorem test_ldadd_lit_jumps : seen 7 (after (start #v[0, 0, 0, 0, 0, 0, 0, 0x2] false false 0x10000 [(0x1, 0x4)]) 0x2079) =
    some (0x4, 0x4, false, false) := by decide

/-- M4 with R1 = 1 in place of the literal; by R131 -/
theorem test_ldsub_reg : seen 4 (after (start #v[0, 0x1, 0x10, 0, 0, 0, 0, 0] false false 0x10000 [(0xF, 0x2222)]) 0x2541) =
    some (0x2222, 0x1, false, false) := by decide

/-- M5 -/
theorem test_ldsub_lit_address_wraps : seen 4 (after (start #v[0, 0, 0, 0, 0, 0, 0, 0] false false 0x10000 [(0xFFFF, 0x3333)]) 0x2449) =
    some (0x3333, 0x1, true, false) := by decide

/-- M6 with R1 = 1 in place of the literal; by R132 -/
theorem test_ldaddw_reg_writes_back : seen 2 (after (start #v[0, 0x1, 0x10, 0, 0, 0, 0, 0] false false 0x10000 [(0x11, 0x4444)]) 0x2941) =
    some (0x11, 0x1, false, false) := by decide

/-- M7 -/
theorem test_ldaddw_lit_load_wins : seen 2 (after (start #v[0, 0, 0x10, 0, 0, 0, 0, 0] false false 0x10000 [(0x11, 0x4444)]) 0x2929) =
    some (0x4444, 0x1, false, false) := by decide

/-- CT12 -/
theorem test_ldaddw_lit_pc_base : seen 1 (after (start #v[0, 0, 0, 0, 0, 0, 0, 0x5] false false 0x10000 [(0x8, 0xAA)]) 0x2B9A) =
    some (0xAA, 0x8, false, false) := by decide

/-- M8 with R1 = 1 in place of the literal; by R133 -/
theorem test_ldsubw_reg_writes_back : seen 2 (after (start #v[0, 0x1, 0x10, 0, 0, 0, 0, 0] false false 0x10000 [(0xF, 0x2222)]) 0x2D41) =
    some (0xF, 0x1, false, false) := by decide

/-- M9 -/
theorem test_ldsubw_lit : seen 4 (after (start #v[0, 0, 0x1, 0, 0, 0, 0, 0] false false 0x10000 [(0x0, 0x7777)]) 0x2D49) =
    some (0x7777, 0x1, false, true) := by decide

/-- F5: flags written from the address -/
theorem test_ldadd_lit_out_of_range : faulted 4 (after (start #v[0, 0, 0x100, 0, 0x5555, 0, 0, 0] false true 0x100 []) 0x2148) =
    some (some (.dmemIndexOutOfRange 0x100 0 0x2148), 0x5555, 0x1, false, false) := by decide

/-- F8: the write-back is done -/
theorem test_ldsubw_lit_out_of_range : faulted 0 (after (start #v[0, 0, 0, 0, 0x5555, 0, 0, 0] false false 0x100 []) 0x2C49) =
    some (some (.dmemIndexOutOfRange 0xFFFF 0 0x2C49), 0xFFFF, 0x1, true, false) := by decide

/-- M10, scenario S-B -/
theorem test_stadd_lit : stored 0xA 2 (after (start #v[0, 0, 0xA, 0x1234, 0, 0, 0, 0] false false 0x10000 []) 0x3138) =
    some (some 0x1234, 0xA, false, false) := by decide

/-- M12: the address wraps to 0 -/
theorem test_stadd_reg : stored 0x0 2 (after (start #v[0, 0, 0x8000, 0, 0, 0, 0, 0] false false 0x10000 []) 0x3122) =
    some (some 0x8000, 0x8000, false, true) := by decide

/-- M13 -/
theorem test_stsub_lit : stored 0xE 2 (after (start #v[0, 0, 0x10, 0xCAFE, 0, 0, 0, 0] false false 0x10000 []) 0x353A) =
    some (some 0xCAFE, 0x10, false, false) := by decide

/-- M13 with R1 = 2 in place of the literal; by R135 -/
theorem test_stsub_reg : stored 0xE 2 (after (start #v[0, 0x2, 0x10, 0xCAFE, 0, 0, 0, 0] false false 0x10000 []) 0x3531) =
    some (some 0xCAFE, 0x10, false, false) := by decide

/-- M15 -/
theorem test_staddw_lit_stores_the_new_base : stored 0x13 2 (after (start #v[0, 0, 0x10, 0, 0, 0, 0, 0] false false 0x10000 []) 0x392B) =
    some (some 0x13, 0x13, false, false) := by decide

/-- M14 with R1 = 3 in place of the literal; by R136 -/
theorem test_staddw_reg : stored 0x13 2 (after (start #v[0, 0x3, 0x10, 0xCAFE, 0, 0, 0, 0] false false 0x10000 []) 0x3931) =
    some (some 0xCAFE, 0x13, false, false) := by decide

/-- CT15 -/
theorem test_stsubw_lit_all_ones : stored 0xFFFC 7 (after (start #v[0, 0, 0, 0, 0, 0, 0, 0x2] false false 0x10000 []) 0xFFFF) =
    some (some 0xFFFC, 0xFFFC, true, false) := by decide

/-- M16 with R1 = 1 in place of the literal; by R137 -/
theorem test_stsubw_reg : stored 0xF 2 (after (start #v[0, 0x1, 0x10, 0xCAFE, 0, 0, 0, 0] false false 0x10000 []) 0x3D31) =
    some (some 0xCAFE, 0xF, false, false) := by decide

/-- F7: the write-back is done -/
theorem test_staddw_lit_out_of_range : faulted 2 (after (start #v[0, 0, 0xFF, 0xCAFE, 0, 0, 0, 0] false false 0x100 []) 0x3939) =
    some (some (.dmemIndexOutOfRange 0x100 0 0x3939), 0x100, 0x1, false, false) := by decide

/-- STADD R3, [R2, #0] with R3 = 0; by R134 -/
theorem test_store_of_zero_clears_a_cell : stored 0xA 2 (after (start #v[0, 0, 0xA, 0, 0, 0, 0, 0] false false 0x10000 [(0xA, 0x1234)]) 0x3138) =
    some (some 0x0, 0xA, false, false) := by decide

/-- M17 -/
theorem test_stadd_skipped : stored 0xA 3 (after (start #v[0, 0, 0xA, 0x1234, 0, 0, 0, 0] false false 0x10000 []) 0x7138) =
    some (some 0x0, 0x1234, false, false) := by decide

/-- The name of the outcome of a step. -/
def verdict : Host.Outcome State Fault Refusal → Option (State ⊕ Fault)
  | .next t => some (.inl t)
  | .fault f => some (.inr f)
  | .refused _ => none

/-- F10: `R7` at `IMEM_SIZE = 4`; only `R7` changes and the fault is recorded. -/
theorem test_fetch_out_of_range :
    verdict (step { launch { program := [1, 2, 3, 4] } with rf := { regs := #v[0, 0, 0, 0, 0, 0, 0, 4], we := false } }) =
      some (.inl { launch { program := [1, 2, 3, 4] } with
        rf := { regs := #v[0, 0, 0, 0, 0, 0, 0, 5], we := false }, fault := some (.imemIndexOutOfRange 4) }) := by
  decide

/-- F12: a faulted core answers its fault. -/
theorem test_faulted_core_stops :
    verdict (step (State.reset.raise (.imemIndexOutOfRange 0))) = some (.inr (.imemIndexOutOfRange 0)) := by decide

/-- F11: the empty program of `State.reset` faults at the first fetch. -/
theorem test_reset_runs_no_program :
    faulted 1 (match step State.reset with | .next t => some t | _ => none) =
      some (some (.imemIndexOutOfRange 0), 0, 1, false, false) := by decide

/-- CT17: the counter wraps from 0xFFFF to 0. -/
theorem test_pc_wraps : seen 1 (after (start #v[0, 0, 0, 0, 0, 0, 0, 0xFFFF] false false 1 []) 0x081D) =
    some (5, 0, false, false) := by decide

/-- The conditional forms of 95_test_vectors.md section 1.2 on the pairs where they differ: `081D`, `481D`, `881D`,
`C81D` with `(N, Z)` = `(0, 0)`, `(0, 1)`, `(1, 0)`. -/
theorem test_condition_codes :
    ([(false, false), (false, true), (true, false)].map fun f => [0x081D, 0x481D, 0x881D, 0xC81D].map fun w =>
      (seen 1 (after (start #v[0, 0, 0, 0, 0, 0, 0, 0] f.1 f.2 1 []) w)).map (·.1)) =
    [[some 5, some 0, some 0, some 5], [some 5, some 5, some 0, some 0], [some 5, some 0, some 5, some 0]] := by decide

/-- Write-enable gating (95_test_vectors.md section 1.5) on the register file and on a memory. -/
theorem test_write_enable_gating :
    (let f : RegFile := { regs := #v[0, 0, 0, 0x00AA, 0, 0, 0, 0], we := false }
     (f.write 3 0x1234).read 3 = 0x00AA ∧ ((f.setWriteEnable true).write 3 0x1234).read 3 = 0x1234) ∧
    (let m : Memory := { size := 8, cells := [(5, 0x00AA)], we := false }
     m.write 5 0x1234 = some m ∧ ((m.setWriteEnable true).write 5 0x1234).map (·.cells) = some [(5, 0x1234)] ∧
     m.write 8 0 = none) := by decide

/-- 45_variant32.md R161, R162: the unsigned less-than, and a shift amount that is left open. -/
theorem test_alu32 :
    alu32 7 0x7FFFFFFF 0x80000000 = .ok 1 ∧ alu32 6 0x80000000 31 = .ok 1 ∧
    alu32 5 1 32 = .error (.shift32AmountOpen 32) := by decide

/-- 30_encoding.md R62: digits with underscores and a comment; a full-line comment; an empty line; no numeral. -/
theorem test_loader_lines :
    parseImage ["00_0_010_000_001_1_101 // ADD R1, R0, #5".toList, "// comment".toList, [], "2".toList] = [0x081D] := by
  decide

/-! ### Witnesses: states and operands that meet the hypotheses of the statements

Each `witness_<Name>` meets the hypotheses of `Obligations.<Name>`, at the edges of their ranges, one line for each
clause. -/

/-- A state with `DMEM_SIZE` 256: `R1 = 1`, `R2` the last data index, `R3 = CAFE`, `R5 = 0x101`, `R6 = 0x100`, the
other registers 0; the words DIV.AL R2, R1, #0 and DIV.Z R2, R1, #0 at indices 0 and 1 of `imem`. -/
def edge : State :=
  { start #v[0, 1, 0xFF, 0xCAFE, 0, 0x101, 0x100, 0] false false 256 [(0xFF, 9)] with
    imem := { size := 2, cells := [(0, 0x14A8), (1, 0x54A8)], we := false } }

/-- `edge` with another program counter and word at index 3 of a four-word program. -/
def at3 (w : Word) : State :=
  { edge with rf := { regs := #v[0, 1, 0xFF, 0xCAFE, 0, 0x101, 0x100, 3], we := false },
              imem := { size := 4, cells := [(3, w)], we := false } }

/-- Both operand forms of an address form have an address that is the last in range and the first beyond it. -/
def MeetsEdges (o : AddrOp) (rnIn rnOut : RegIdx) (mIn mOut : RegIdx) (kIn kOut : Lit) : Prop :=
  condex .al edge.n edge.z = true ∧ condex .p edge.n edge.z = true ∧
  (ea o edge rnIn (.reg mIn)).toNat + 1 = edge.dmem.size ∧ (ea o edge rnOut (.reg mOut)).toNat = edge.dmem.size ∧
  (ea o edge rnIn (.lit kIn)).toNat + 1 = edge.dmem.size ∧ (ea o edge rnOut (.lit kOut)).toNat = edge.dmem.size

theorem witness_FieldsTileTheWord : fullFields.wf = true ∧ (Fields.mk 0 0 0 0 0 0 0).wf = true := by decide

/-- A failing and a passing condition. -/
theorem witness_GatedDecoderDecidesTheStep :
    ((at3 0x54A8).fault = none ∧ (at3 0x54A8).iFetch (at3 0x54A8).pc = some 0x54A8 ∧
      decodeGated 0x54A8 (at3 0x54A8).n (at3 0x54A8).z = .ok none) ∧
    (edge.fault = none ∧ edge.iFetch edge.pc = some 0x14A8 ∧
      decodeGated 0x14A8 edge.n edge.z = .ok (some (.divLit .al 2 1 0))) := by decide

/-- `b <= a` at equality and `a < b` at one less. -/
theorem witness_AluWrappingArithmetic : (0x8000 : Word).toNat ≤ (0x8000 : Word).toNat ∧
    (0x7FFF : Word).toNat < (0x8000 : Word).toNat := by decide

theorem witness_AluDivisionLaw : (1 : Word) ≠ 0 ∧ alu16 .div 0xFFFF 0 = .error .div ∧
    alu16 .rem 0xFFFF 0 = .error .rem := by decide

theorem witness_AndWritesBitwiseAnd : condex .al edge.n edge.z = true ∧ condex .p edge.n edge.z = true := by decide

theorem witness_OrWritesBitwiseOr : condex .al edge.n edge.z = true ∧ condex .p edge.n edge.z = true := by decide

theorem witness_AddWritesWrappedSum : condex .al edge.n edge.z = true ∧ condex .p edge.n edge.z = true := by decide

theorem witness_SubWritesWrappedDifference : condex .al edge.n edge.z = true ∧ condex .p edge.n edge.z = true := by decide

theorem witness_MulWritesLowProduct : condex .al edge.n edge.z = true ∧ condex .p edge.n edge.z = true := by decide

theorem witness_XorWritesExclusiveOr : condex .al edge.n edge.z = true ∧ condex .p edge.n edge.z = true := by decide

theorem witness_DivWritesQuotient : condex .al edge.n edge.z = true ∧ edge.readReg 1 ≠ 0 ∧ (1 : Lit) ≠ 0 := by decide

theorem witness_RemWritesRemainder : condex .al edge.n edge.z = true ∧ edge.readReg 1 ≠ 0 ∧ (1 : Lit) ≠ 0 := by decide

theorem witness_LdaddLoadsFromSum : MeetsEdges .add 2 2 0 1 0 1 := by unfold MeetsEdges; decide

theorem witness_LdaddwLoadsFromSumAndWritesBack : MeetsEdges .add 2 2 0 1 0 1 := by unfold MeetsEdges; decide

theorem witness_StaddStoresToSum : MeetsEdges .add 2 2 0 1 0 1 := by unfold MeetsEdges; decide

theorem witness_StaddwStoresToSumAndWritesBack : MeetsEdges .add 2 2 0 1 0 1 := by unfold MeetsEdges; decide

theorem witness_LdsubLoadsFromDifference : MeetsEdges .sub 6 5 1 1 1 1 := by unfold MeetsEdges; decide

theorem witness_LdsubwLoadsFromDifferenceAndWritesBack : MeetsEdges .sub 6 5 1 1 1 1 := by unfold MeetsEdges; decide

theorem witness_StsubStoresToDifference : MeetsEdges .sub 6 5 1 1 1 1 := by unfold MeetsEdges; decide

theorem witness_StsubwStoresToDifferenceAndWritesBack : MeetsEdges .sub 6 5 1 1 1 1 := by unfold MeetsEdges; decide

theorem witness_EffectiveAddressWraps : State.reset.dmem.size = 2 ^ 16 := by decide

theorem witness_OperandsAfterTheFetchStage : condex .al edge.n edge.z = true ∧
    alu16 .mul (edge.readReg 3) (edge.readReg 3) = .ok 0xD404 ∧ alu16 .rem (edge.readReg 1) (edge.readReg 1) = .ok 0 := by
  decide

/-- STADD R7, [R0, #5]; ADD R1, R0, #1; STADD R1, [R0, #4]; LDADD R4, [R7, #1], whose base reads 4. -/
def storeThenLoad : State :=
  launch { program := [0b00_1_100_000_111_1_101, 0b00_0_010_000_001_1_001, 0b00_1_100_000_001_1_100,
                       0b00_1_000_111_100_1_001] }

/-- ADD R1, R0, #1; LDADD R4, [R0, #0], in a data memory of one cell that holds 7. -/
def initialDatum : Params :=
  { program := [0b00_0_010_000_001_1_001, 0b00_1_000_000_100_1_000], dmemSize := 1, dmemInit := [7] }

theorem not_storesWord {s : State} {a w : Word} {i : Instr} (hw : s.iFetch s.pc = some w) (hd : decode w = .ok i)
    (hi : ∀ o c rd rn b, i = mmInstr o c rd rn b → ea o.operation s.advancePc rn b ≠ a) :
    ¬∃ u, StoresWord s a u := by
  rintro ⟨u, -, -, w', o, c, rd, rn, b, hw', hd', -, -, he, -⟩
  obtain rfl : w = w' := Option.some.inj (hw.symm.trans hw')
  exact hi o c rd rn b (Except.ok.inj (hd.symm.trans hd')) he

theorem add_is_no_store {s : State} (a : Word) (hw : s.iFetch s.pc = some 0x0819) : ¬∃ u, StoresWord s a u := by
  refine not_storesWord hw (i := .addLit .al 1 0 1) (by decide) fun o c rd rn b h => ?_
  obtain ⟨w, wb, op⟩ := o
  cases w <;> cases wb <;> cases op <;> cases b <;> cases h

/-- Between the store and the load: an instruction that stores nothing and a store to another cell. -/
theorem witness_LoadReturnsTheLastStore :
    StoresWord storeThenLoad 5 1 ∧ (∀ j, 1 ≤ j → j ≤ 2 → ¬∃ u, StoresWord (run j storeThenLoad) 5 u) ∧
    LoadsWord (run 3 storeThenLoad) 5 4 := by
  refine ⟨⟨rfl, by decide, 0x307D, ⟨true, false, .add⟩, .al, 7, 0, .lit 5, by decide⟩, fun j h1 h2 => ?_,
    ⟨by decide, 0x23C9, ⟨false, false, .add⟩, .al, 7, .lit 1, by decide⟩⟩
  obtain rfl | rfl : j = 1 ∨ j = 2 := by omega
  · exact add_is_no_store 5 (by decide)
  · refine not_storesWord (w := 0x301C) (i := .staddLit .al 1 0 4) (by decide) (by decide) fun o c rd rn b h => ?_
    obtain ⟨w, wb, op⟩ := o
    cases w <;> cases wb <;> cases op <;> cases b <;> cases h
    decide

/-- The second clause: the only cell, at index 0, never stored to. -/
theorem witness_LoadReturnsTheInitialDatum :
    (0 : Word).toNat < initialDatum.dmemSize ∧ (∀ j, j < 1 → ¬∃ u, StoresWord (run j (launch initialDatum)) 0 u) ∧
    LoadsWord (run 1 (launch initialDatum)) 0 4 := by
  refine ⟨by decide, fun j h => ?_, ⟨by decide, 0x2048, ⟨false, false, .add⟩, .al, 0, .lit 0, by decide⟩⟩
  obtain rfl : j = 0 := by omega
  exact add_is_no_store 0 (by decide)

theorem witness_FailedConditionSkipsEveryInstruction :
    condex (Instr.cond (.staddwLit .z 3 2 0)) edge.n edge.z = false ∧
    condex (Instr.cond (.divReg .n 3 2 0)) edge.n edge.z = false := by decide

/-- A skipped instruction at the last index, and a fetch at the first index beyond. -/
theorem witness_SkippedStepOnlyAdvancesThePc :
    ((at3 0x54A8).fault = none ∧ (at3 0x54A8).iFetch (at3 0x54A8).pc = some 0x54A8 ∧
      decode 0x54A8 = .ok (.divLit .z 2 1 0) ∧ condex .z (at3 0x54A8).n (at3 0x54A8).z = false) ∧
    (State.reset.fault = none ∧ State.reset.imem.size ≤ (State.reset.readReg 7).toNat) := by decide

/-- A zero divisor in a register (`R0`), and an instruction that leaves the fault recorded. -/
theorem witness_DivideByZeroFault : ∃ t,
    condex .al edge.n edge.z = true ∧ edge.readReg 0 = 0 ∧ edge.fault = none ∧
    exec (.remReg .al 2 1 0) edge = .next t ∧ t.fault = some (.divideByZero .rem 1 0xFFFF 0x18A0) :=
  ⟨_, by decide, by decide, by decide, rfl, by decide⟩

theorem witness_FetchOutOfRangeFault :
    (at3 0).fault = none ∧ ((at3 0).readReg 7).toNat + 1 = (at3 0).imem.size ∧
    (at3 0).advancePc.fault = none ∧ ((at3 0).advancePc.readReg 7).toNat = (at3 0).advancePc.imem.size := by decide

theorem witness_FaultedCoreTakesNoStep :
    (edge.raise (.imemIndexOutOfRange 4)).fault = some (.imemIndexOutOfRange 4) := by decide

/-- A step that records each of the three faults: the fetch at `IMEM_SIZE`, the first index beyond `dmem`
(LDADDW R4, [R2, #1]), a division by zero. -/
theorem witness_OnlyTheThreeReachableFaults :
    (∃ t, (at3 0).advancePc.fault = none ∧ step (at3 0).advancePc = .next t ∧ t.fault = some (.imemIndexOutOfRange 4)) ∧
    (∃ t, (at3 0x2949).fault = none ∧ step (at3 0x2949) = .next t ∧
      t.fault = some (.dmemIndexOutOfRange 0x100 3 0x2949)) ∧
    (∃ t, edge.fault = none ∧ step edge = .next t ∧ t.fault = some (.divideByZero .div 1 0 0x14A8)) :=
  ⟨⟨_, rfl, rfl, rfl⟩, ⟨_, rfl, rfl, rfl⟩, ⟨_, rfl, rfl, rfl⟩⟩

theorem witness_UnfaultedCoreAlwaysSteps : edge.fault = none ∧ State.reset.fault = none := by decide

theorem witness_StepRunsTheDecodedInstruction :
    (at3 0x393B).fault = none ∧ (at3 0x393B).iFetch (at3 0x393B).pc = some 0x393B ∧
    decode 0x393B = .ok (.staddwLit .al 3 2 3) ∧ decode (encode (.staddwLit .al 3 2 3)) = .ok (.staddwLit .al 3 2 3) := by
  decide

theorem witness_FetchStageIncrementsThePc : State.reset.fault = none ∧ edge.fault = none := by decide

/-- A computed jump, a loaded one, a write-back to `R7`. -/
theorem witness_OnlyListedWritesReachThePc :
    (∃ t, exec (.orLit .al 7 3 0) edge = .next t ∧ t.readReg 7 ≠ edge.readReg 7) ∧
    (∃ t, exec (.ldaddLit .p 7 2 0) edge = .next t ∧ t.readReg 7 ≠ edge.readReg 7) ∧
    (∃ t, exec (.staddwLit .al 1 7 2) edge = .next t ∧ t.readReg 7 ≠ edge.readReg 7) :=
  ⟨⟨_, rfl, by decide⟩, ⟨_, rfl, by decide⟩, ⟨_, rfl, by decide⟩⟩

/-- The literal form, the register form (`R7` and another), and the word at index 3. -/
theorem witness_ForwardSkip :
    (at3 0x0BFA).fault = none ∧ (at3 0x0BFA).pc = 3 ∧ (at3 0x0BFA).iFetch 3 = some 0x0BFA ∧
    condex .al (at3 0x0BFA).n (at3 0x0BFA).z = true ∧
    (at3 0x0BF7).iFetch (at3 0x0BF7).pc = some 0x0BF7 ∧ decode 0x0BF7 = .ok (.addReg .al 7 7 7) ∧
    (at3 0x0BF1).iFetch (at3 0x0BF1).pc = some 0x0BF1 ∧ decode 0x0BF1 = .ok (.addReg .al 7 7 1) := by decide

theorem witness_BackwardBranch :
    (at3 0xCFFB).fault = none ∧ (at3 0xCFFB).pc = 3 ∧ (at3 0xCFFB).iFetch 3 = some 0xCFFB ∧
    condex .p (at3 0xCFFB).n (at3 0xCFFB).z = true ∧
    (at3 0x0FF9).iFetch (at3 0x0FF9).pc = some 0x0FF9 ∧ condex .al (at3 0x0FF9).n (at3 0x0FF9).z = true ∧
    (at3 0x0FF7).iFetch (at3 0x0FF7).pc = some 0x0FF7 ∧ decode 0x0FF7 = .ok (.subReg .al 7 7 7) := by decide

theorem witness_RegisterFileWriteGating : edge.rf.we = false ∧ (edge.rf.setWriteEnable true).we = true := by decide

/-- The last index in range and the first beyond it, latch low and high. -/
theorem witness_MemoryContract :
    (0xFF : Word).toNat < edge.dmem.size ∧ edge.dmem.size ≤ (0x100 : Word).toNat ∧ edge.dmem.we = false ∧
    (edge.dmem.setWriteEnable true).we = true ∧ (0xFF : Word).toNat < (edge.dmem.setWriteEnable true).size := by decide

theorem witness_DataMemoryPrimitives :
    (0xFF : Word).toNat < edge.dmem.size ∧ edge.dmem.size ≤ (0x100 : Word).toNat := by decide

theorem witness_MemoriesAreDeterminedByTheirReads :
    edge.dmem.wf = true ∧ (Memory.mk 256 [(0xFF, 9)] false).wf = true ∧ edge.dmem.size = 256 ∧
    (256 : Nat) ≤ 2 ^ 16 ∧ edge.dmem.we = false ∧ ∀ a : Word, edge.dmem.read a = (Memory.mk 256 [(0xFF, 9)] false).read a :=
  ⟨by decide, by decide, rfl, by decide, rfl, fun _ => rfl⟩

theorem edge_inv : CoreInv edge := by constructor <;> decide

theorem witness_StepKeepsTheInvariant : ∃ t, CoreInv edge ∧ step edge = .next t := ⟨_, edge_inv, rfl⟩

theorem witness_EveryRunKeepsTheInvariant :
    (Params.mk [0x3138, 0xFFFF] 1 [7]).wf = true ∧ (Params.mk [] (2 ^ 16) []).wf = true := by decide

theorem witness_LaunchState : (Params.mk [0x3138, 0xFFFF] 1 [7]).wf = true ∧ (Params.mk [] (2 ^ 16) []).wf = true := by
  decide

theorem witness_StepNeverWritesTheProgram : ∃ t, step (at3 0x393B) = .next t := ⟨_, rfl⟩

/-- STADD R3, [R2, #0] changes the last cell. -/
theorem witness_OnlyStoresChangeTheDataMemory : ∃ t, exec (.staddLit .al 3 2 0) edge = .next t ∧
    t.memRead 0xFF ≠ edge.memRead 0xFF := ⟨_, rfl, by decide⟩

/-- A failed condition, a division by zero, an executed ALU instruction, a load out of range. -/
theorem witness_ExecutedInstructionsRewriteBothFlags :
    (∃ t, exec (.addLit .z 1 1 1) edge = .next t ∧ condex .z edge.n edge.z = false) ∧
    (∃ t, exec (.divLit .al 1 1 0) edge = .next t ∧ DividesByZero (.divLit .al 1 1 0) edge) ∧
    (∃ t, exec (.subLit .p 1 1 1) edge = .next t ∧ condex .p edge.n edge.z = true ∧
      ¬DividesByZero (.subLit .p 1 1 1) edge) ∧
    (∃ t, exec (.ldaddReg .al 4 2 1) edge = .next t ∧ condex .al edge.n edge.z = true ∧
      ¬DividesByZero (.ldaddReg .al 4 2 1) edge) :=
  ⟨⟨_, rfl, rfl⟩, ⟨_, rfl, rfl⟩, ⟨_, rfl, rfl, id⟩, ⟨_, rfl, rfl, id⟩⟩

/-- Two different states that differ in latches only. -/
theorem witness_LatchesNeverMatter :
    latchesLowered edge = latchesLowered { edge with dmem := edge.dmem.setWriteEnable true } ∧
    edge ≠ { edge with dmem := edge.dmem.setWriteEnable true } := by decide

theorem witness_FaultIsTerminalAndUnread :
    (edge.raise (.imemIndexOutOfRange 4)).fault = some (.imemIndexOutOfRange 4) ∧ edge.fault = none := by decide

theorem witness_RunEndsInOneOfTwoWays : edge.fault = none := by decide

/-- The largest amount that shifts and the smallest that is left open. -/
theorem witness_Alu32Table : (31 : BitVec 32).toNat < 32 ∧ 32 ≤ (32 : BitVec 32).toNat ∧
    (1 : BitVec 32).toNat < (2 : BitVec 32).toNat ∧ (2 : BitVec 32).toNat ≤ (2 : BitVec 32).toNat := by decide

theorem witness_LoaderReadsBackBinaryLines : ∀ c ∈ [' ', '\t'], c.isWhitespace = true := by simp

end Sys2Proof.Tests
end

section
/-! The register file contract: the rules of `write` and `set_write_enable` (10_state.md R12 to R14). -/

namespace Sys2Proof.Machine

@[simp] theorem RegFile.setWriteEnable_we (f : RegFile) (b : Bool) : (f.setWriteEnable b).we = b := rfl

@[simp] theorem RegFile.read_setWriteEnable (f : RegFile) (b : Bool) (j : RegIdx) :
    (f.setWriteEnable b).read j = f.read j := rfl

theorem RegFile.write_of_latch_low {f : RegFile} (low : f.we = false) (k : RegIdx) (v : Word) :
    f.write k v = f := by
  simp [RegFile.write, low]

theorem RegFile.write_of_latch_set {f : RegFile} (high : f.we = true) (k : RegIdx) (v : Word) :
    f.write k v = { f with regs := f.regs.set k.val v } := by
  simp [RegFile.write, high]

@[simp] theorem RegFile.write_we (f : RegFile) (k : RegIdx) (v : Word) : (f.write k v).we = f.we := by
  cases latch : f.we with
  | false => rw [RegFile.write_of_latch_low latch, latch]
  | true => rw [RegFile.write_of_latch_set latch]; exact latch

/-- With the latch set, a plain write leaves the registers a bracketed write leaves. -/
theorem RegFile.read_write_of_latch_set {f : RegFile} (high : f.we = true) (k j : RegIdx) (v : Word) :
    (f.write k v).read j = if j = k then v else f.read j := by
  rw [RegFile.write_of_latch_set high]
  exact RegFile.read_bracket f k j v

/-- Settles O43, from the rule of each register file operation. -/
theorem registerFileWriteGating : Obligations.RegisterFileWriteGating := by
  intro f k v
  refine ⟨fun low => RegFile.write_of_latch_low low k v,
    fun high j => RegFile.read_write_of_latch_set high k j v,
    RegFile.write_we f k v,
    fun b => ⟨RegFile.setWriteEnable_we f b, RegFile.read_setWriteEnable f b⟩,
    fun j => RegFile.read_bracket f k j v,
    RegFile.bracket_we f k v, ?secondWrite⟩
  case secondWrite =>
    intro _ u
    have reenabled : ((f.write k u).setWriteEnable true).we = true := RegFile.setWriteEnable_we _ true
    rw [RegFile.read_write_of_latch_set reenabled, if_pos rfl]

end Sys2Proof.Machine
end

section
/-! `MemRead` and `MemWrite`: the value or the range fault, and the frame of a write (20_memory.md R33, R34). -/

namespace Sys2Proof.Machine

open Sys2Proof.Claims

theorem State.memRead_of_lt {s : State} {a : Word} (inRange : a.toNat < s.dmem.size) :
    s.memRead a = some (cellsGet s.dmem.cells a.toNat) :=
  if_pos inRange

theorem State.memRead_of_size_le {s : State} {a : Word} (outOfRange : s.dmem.size ≤ a.toNat) :
    s.memRead a = none :=
  if_neg (Nat.not_lt.2 outOfRange)

theorem State.memWrite_of_lt {s : State} {a : Word} (inRange : a.toNat < s.dmem.size) (v : Word) :
    ∃ t, s.memWrite a v = some t :=
  ⟨_, (State.memWrite_eq s a v).trans (if_pos inRange)⟩

theorem State.memWrite_of_size_le {s : State} {a : Word} (outOfRange : s.dmem.size ≤ a.toNat) (v : Word) :
    s.memWrite a v = none :=
  (State.memWrite_eq s a v).trans (if_neg (Nat.not_lt.2 outOfRange))

/-- A write leaves the data latch low and keeps the size: the bracket of R34. -/
theorem State.memWrite_latch_size {s t : State} {a v : Word} (written : s.memWrite a v = some t) :
    t.dmem.we = false ∧ t.dmem.size = s.dmem.size := by
  obtain ⟨-, rfl⟩ := State.memWrite_cases written
  exact ⟨rfl, rfl⟩

/-- A write changes nothing outside the data memory. -/
theorem State.memWrite_frame {s t : State} {a v : Word} (written : s.memWrite a v = some t) :
    t.rf = s.rf ∧ FlagsKept s t ∧ ProgramAndFaultKept s t := by
  obtain ⟨-, rfl⟩ := State.memWrite_cases written
  exact ⟨rfl, ⟨rfl, rfl⟩, rfl, rfl⟩

/-- Settles O45, from what each primitive answers on either side of `DMEM_SIZE` and what a write keeps. -/
theorem dataMemoryPrimitives : Obligations.DataMemoryPrimitives := by
  intro s a v
  refine ⟨State.memRead_of_lt,
    fun outOfRange => ⟨State.memRead_of_size_le outOfRange, State.memWrite_of_size_le outOfRange v⟩, ?write⟩
  case write =>
    intro inRange
    obtain ⟨t, written⟩ := State.memWrite_of_lt inRange v
    obtain ⟨latchLow, sizeKept⟩ := State.memWrite_latch_size written
    obtain ⟨rfKept, flagsKept, restKept⟩ := State.memWrite_frame written
    have reads := State.memRead_memWrite written
    exact ⟨t, written, (reads a).trans (if_pos rfl), fun b other => (reads b).trans (if_neg other),
      latchLow, sizeKept, fun k => congrArg (RegFile.read · k) rfKept, congrArg RegFile.we rfKept,
      flagsKept, restKept⟩

end Sys2Proof.Machine
end

section
/-! The field decoder: each field of a Word as the number made of its bits (30_encoding.md R52). -/

namespace Sys2Proof

/-- "Right-shifted and masked": the bits of `n` from `lo` up, `width` of them, as a number. -/
theorem shiftRight_and_mask_eq_div_mod (n lo width : Nat) :
    (n >>> lo) &&& (2 ^ width - 1) = n / 2 ^ lo % 2 ^ width := by
  rw [Nat.and_two_pow_sub_one_eq_mod, Nat.shiftRight_eq_div_pow]

theorem extractFields_cond (w : Word) : (extractFields w).cond = w.toNat / 2 ^ 14 % 4 :=
  shiftRight_and_mask_eq_div_mod w.toNat 14 2

theorem extractFields_mem (w : Word) : (extractFields w).mem = w.toNat / 2 ^ 13 % 2 :=
  shiftRight_and_mask_eq_div_mod w.toNat 13 1

theorem extractFields_opcode (w : Word) : (extractFields w).opcode = w.toNat / 2 ^ 10 % 8 :=
  shiftRight_and_mask_eq_div_mod w.toNat 10 3

theorem extractFields_rn (w : Word) : (extractFields w).rn = w.toNat / 2 ^ 7 % 8 :=
  shiftRight_and_mask_eq_div_mod w.toNat 7 3

theorem extractFields_rd (w : Word) : (extractFields w).rd = w.toNat / 2 ^ 4 % 8 :=
  shiftRight_and_mask_eq_div_mod w.toNat 4 3

theorem extractFields_i (w : Word) : (extractFields w).i = w.toNat / 2 ^ 3 % 2 :=
  shiftRight_and_mask_eq_div_mod w.toNat 3 1

/-- The lowest field is masked without a shift. -/
theorem extractFields_src2 (w : Word) : (extractFields w).src2 = w.toNat % 8 :=
  Nat.and_two_pow_sub_one_eq_mod w.toNat 3

/-- Settles O2, from the bits of each field. -/
theorem fieldExtraction : Obligations.FieldExtraction := fun w =>
  ⟨extractFields_cond w, extractFields_mem w, extractFields_opcode w, extractFields_rn w,
    extractFields_rd w, extractFields_i w, extractFields_src2 w⟩

end Sys2Proof
end

section
/-! The condition codes: the condition each names, and the flags under which it executes (30_encoding.md R57). -/

namespace Sys2Proof

/-- Decoding a condition inverts `Cond.code`: a condition's code names that condition. -/
@[simp] theorem condOfCode_code (c : Cond) : condOfCode c.code = .ok c := by
  cases c <;> rfl

@[simp] theorem condex_al (n z : Bool) : condex .al n z = true := rfl

@[simp] theorem condex_z (n z : Bool) : condex .z n z = z := rfl

@[simp] theorem condex_n (n z : Bool) : condex .n n z = n := rfl

theorem condex_p_iff (n z : Bool) : condex .p n z = true ↔ n = false ∧ z = false := by
  simp [condex]

/-- Settles O6, from the code of each condition and the evaluator's value at each condition. -/
theorem conditionTable : Obligations.ConditionTable := by
  refine ⟨condOfCode_code .al, condOfCode_code .z, condOfCode_code .n, condOfCode_code .p, ?evaluator⟩
  case evaluator =>
    intro n z
    exact ⟨condex_al n z, by rw [condex_z], by rw [condex_n], condex_p_iff n z⟩

end Sys2Proof
end

section
/-! Decoding is total on Words: each field in its range names its operand, and the instruction decoded carries the
fields it was decoded from (30_encoding.md R52 to R58). The gated decoder decodes or skips (40_cycle_and_decode.md
R75). -/

namespace Sys2Proof

theorem condOfCode_of_lt {k : Nat} (inRange : k < 4) : ∃ c, condOfCode k = .ok c ∧ c.code = k := by
  interval_cases k
  · exact ⟨.al, rfl, rfl⟩
  · exact ⟨.z, rfl, rfl⟩
  · exact ⟨.n, rfl, rfl⟩
  · exact ⟨.p, rfl, rfl⟩

theorem aluOpOfCode_of_lt {k : Nat} (inRange : k < 8) : ∃ op, aluOpOfCode k = .ok op ∧ op.code = k := by
  interval_cases k
  · exact ⟨.and, rfl, rfl⟩
  · exact ⟨.or, rfl, rfl⟩
  · exact ⟨.add, rfl, rfl⟩
  · exact ⟨.sub, rfl, rfl⟩
  · exact ⟨.mul, rfl, rfl⟩
  · exact ⟨.div, rfl, rfl⟩
  · exact ⟨.rem, rfl, rfl⟩
  · exact ⟨.xor, rfl, rfl⟩

theorem memOpOfCode_of_lt {k : Nat} (inRange : k < 8) : ∃ o, memOpOfCode k = .ok o ∧ o.code = k := by
  refine ⟨_, if_pos inRange, ?_⟩
  interval_cases k <;> rfl

theorem regOfIndex_of_lt {k : Nat} (inRange : k < 8) : regOfIndex k = .ok ⟨k, inRange⟩ :=
  dif_pos inRange

theorem operandOfFields_of_lt {i src2 : Nat} (bit : i < 2) (inRange : src2 < 8) :
    ∃ b, operandOfFields i src2 = .ok b ∧ b.iBit = i ∧ b.src2 = src2 := by
  obtain rfl | rfl : i = 0 ∨ i = 1 := by omega
  · exact ⟨.reg ⟨src2, inRange⟩, congrArg (Except.map OperandB.reg) (regOfIndex_of_lt inRange), rfl, rfl⟩
  · exact ⟨.lit (BitVec.ofNat 3 src2), if_pos inRange, rfl, Nat.mod_eq_of_lt inRange⟩

theorem Fields.wf_iff (f : Fields) : f.wf = true ↔
    f.cond < 4 ∧ f.mem < 2 ∧ f.opcode < 8 ∧ f.rn < 8 ∧ f.rd < 8 ∧ f.i < 2 ∧ f.src2 < 8 := by
  simp only [Fields.wf, Bool.and_eq_true, decide_eq_true_eq, and_assoc]

/-- No record of fields in range is rejected, and none of its fields is lost (R58). -/
theorem decodeFields_of_wf {f : Fields} (wf : f.wf = true) : ∃ i, decodeFields f = .ok i ∧ i.fields = f := by
  obtain ⟨cond, mem, opcode, rn, rd, i, src2⟩ := f
  simp only [Fields.wf_iff] at wf
  obtain ⟨condLt, memLt, opcodeLt, rnLt, rdLt, iLt, src2Lt⟩ := wf
  obtain ⟨c, condOk, rfl⟩ := condOfCode_of_lt condLt
  obtain ⟨b, operandOk, rfl, rfl⟩ := operandOfFields_of_lt iLt src2Lt
  have rnOk := regOfIndex_of_lt rnLt
  have rdOk := regOfIndex_of_lt rdLt
  obtain rfl | rfl : mem = 0 ∨ mem = 1 := by omega
  · obtain ⟨op, opOk, rfl⟩ := aluOpOfCode_of_lt opcodeLt
    refine ⟨dpInstr op c ⟨rd, rdLt⟩ ⟨rn, rnLt⟩ b, ?_, Machine.dpInstr_fields op c _ _ b⟩
    simp only [decodeFields, condOk, rnOk, rdOk, operandOk, opOk]
    rfl
  · obtain ⟨o, opOk, rfl⟩ := memOpOfCode_of_lt opcodeLt
    refine ⟨mmInstr o c ⟨rd, rdLt⟩ ⟨rn, rnLt⟩ b, ?_, Machine.mmInstr_fields o c _ _ b⟩
    simp only [decodeFields, condOk, rnOk, rdOk, operandOk, opOk]
    rfl

theorem extractFields_wf (w : Word) : (extractFields w).wf = true := by
  rw [Fields.wf_iff, extractFields_cond, extractFields_mem, extractFields_opcode, extractFields_rn,
    extractFields_rd, extractFields_i, extractFields_src2]
  omega

/-- Every Word is an instruction, and its fields are the Word's. -/
theorem decode_total (w : Word) : ∃ i, decode w = .ok i ∧ i.fields = extractFields w :=
  decodeFields_of_wf (extractFields_wf w)

theorem Instr.fields_cond (i : Instr) : i.fields.cond = i.cond.code := by
  rcases Machine.instr_cases i with ⟨op, c, rd, rn, b, rfl⟩ | ⟨o, c, rd, rn, b, rfl⟩
  · rw [Machine.dpInstr_fields, Machine.dpInstr_cond]; rfl
  · rw [Machine.mmInstr_fields, Machine.mmInstr_cond]; rfl

/-- The condition the gated decoder tests first is the one the whole instruction carries. -/
theorem condOfCode_extractFields {w : Word} {i : Instr} (fields : i.fields = extractFields w) :
    condOfCode (extractFields w).cond = .ok i.cond := by
  rw [← fields, Instr.fields_cond, condOfCode_code]

/-- The gated decoder is the decoder behind the condition evaluator. -/
theorem decodeGated_of_decode {w : Word} {i : Instr} (decoded : decode w = .ok i)
    (fields : i.fields = extractFields w) (n z : Bool) :
    decodeGated w n z = .ok (if condex i.cond n z = true then some i else none) := by
  have condOk : condOfCode ((w.toNat >>> 14) &&& 0b11) = .ok i.cond := condOfCode_extractFields fields
  rw [decodeGated, condOk, decoded]
  cases gate : condex i.cond n z <;> simp [gate, bind, Except.bind, pure, Except.pure]

/-- The top field needs no mask: nothing of a Word lies above it. -/
theorem extractFields_cond_eq_div (w : Word) : (extractFields w).cond = w.toNat / 2 ^ 14 := by
  rw [extractFields_cond]
  omega

/-- Settles O7: decoding is total, and the gate is the condition the decoded instruction carries. -/
theorem gatedDecoderIsTotal : Obligations.GatedDecoderIsTotal := by
  intro w n z
  obtain ⟨i, decoded, fields⟩ := decode_total w
  refine ⟨i, fields, ?condition, decodeGated_of_decode decoded fields n z⟩
  case condition =>
    rw [← extractFields_cond_eq_div]
    exact condOfCode_extractFields fields

end Sys2Proof
end

section
/-! The operands as the dispatch stage sees them (40_cycle_and_decode.md R76): the fetch stage has incremented `R7`,
and the dispatch stage has written nothing yet. -/

namespace Sys2Proof.Machine

/-- The register file after the fetch stage, `R7` included. -/
theorem State.readReg_advancePc_eq (s : State) (r : RegIdx) :
    s.advancePc.readReg r = if r = 7 then s.readReg 7 + 1 else s.readReg r :=
  State.readReg_writeReg s pcIndex r (s.pc + 1)

theorem operandB_lit_toNat (s : State) (k : Lit) : (operandB s (.lit k)).toNat = k.toNat :=
  BitVec.toNat_setWidth_of_le (by decide)

/-- The result of a data-processing instruction is that of the operands of the state it starts from, whichever
register it is written to. -/
theorem exec_dpInstr_result {op : AluOp} {c : Cond} {rn : RegIdx} {b : OperandB} {s : State} {v : Word}
    (rd : RegIdx) (pass : condex c s.n s.z = true) (result : alu16 op (operandA s rn) (operandB s b) = .ok v) :
    ∃ t, exec (dpInstr op c rd rn b) s = .next t ∧ t.readReg rd = v := by
  refine ⟨(s.setFlags v).writeReg rd v, ?_, State.readReg_writeReg_same _ rd v⟩
  rw [exec_dpInstr, dataProcessing_ok rd pass result]

/-- Settles O29, from the registers after the fetch stage and the result of a data-processing instruction. -/
theorem operandsAfterTheFetchStage : Obligations.OperandsAfterTheFetchStage :=
  ⟨fun s r => ⟨State.readReg_advancePc_eq s r, State.readReg_advancePc_eq s r⟩,
    operandB_lit_toNat,
    fun _ _ _ r _ pass result => exec_dpInstr_result r pass result⟩

end Sys2Proof.Machine
end

section
/-! The fetch on either side of `IMEM_SIZE` (40_cycle_and_decode.md R72). -/

namespace Sys2Proof.Machine

open Sys2Proof.Claims

theorem State.iFetch_of_lt {s : State} {a : Word} (inRange : a.toNat < s.imem.size) :
    s.iFetch a = some (cellsGet s.imem.cells a.toNat) :=
  if_pos inRange

theorem State.iFetch_of_size_le {s : State} {a : Word} (outOfRange : s.imem.size ≤ a.toNat) :
    s.iFetch a = none :=
  if_neg (Nat.not_lt.2 outOfRange)

theorem step_of_iFetch_none {s : State} (unfaulted : s.fault = none) (failed : s.iFetch s.pc = none) :
    step s = .next (s.advancePc.raise (.imemIndexOutOfRange s.pc)) := by
  simp [step, unfaulted, State.fetch_of_none failed]

/-- `x[7]` after the fetch stage, as a number: the increment wraps (10_state.md R16). -/
theorem State.readReg_advancePc_seven_toNat (s : State) :
    (s.advancePc.readReg 7).toNat = ((s.readReg 7).toNat + 1) % 2 ^ 16 :=
  (congrArg BitVec.toNat (State.advancePc_pc s)).trans (BitVec.toNat_add _ 1)

/-- Settles O34, from what the fetch answers on either side of `IMEM_SIZE`. -/
theorem fetchOutOfRangeFault : Obligations.FetchOutOfRangeFault := by
  intro s unfaulted
  refine ⟨fun outOfRange => ?fault, fun inRange => ?fetched⟩
  case fault =>
    have failed : s.iFetch s.pc = none := State.iFetch_of_size_le outOfRange
    refine ⟨_, step_of_iFetch_none unfaulted failed, rfl, ?pc, ?others, ⟨rfl, rfl⟩, ⟨fun _ => rfl, rfl, rfl⟩, rfl⟩
    case pc => exact State.readReg_advancePc_seven_toNat s
    case others => exact fun _ other => State.readReg_advancePc s other
  case fetched =>
    have fetched : s.iFetch s.pc = some _ := State.iFetch_of_lt inRange
    exact ⟨_, fetched, State.fetch_of_some fetched, State.advancePc_imem s⟩

end Sys2Proof.Machine
end

section
/-! The ALU: what the operations that cannot fault yield (41_alu.md R91 to R95, R98), and the two readings of a
wrapped result, unsigned and two's-complement. -/

namespace Sys2Proof.Machine

@[simp] theorem alu16_and (a b : Word) : alu16 .and a b = .ok (a &&& b) := rfl

@[simp] theorem alu16_or (a b : Word) : alu16 .or a b = .ok (a ||| b) := rfl

@[simp] theorem alu16_xor (a b : Word) : alu16 .xor a b = .ok (a ^^^ b) := rfl

@[simp] theorem alu16_add (a b : Word) : alu16 .add a b = .ok (a + b) := rfl

@[simp] theorem alu16_sub (a b : Word) : alu16 .sub a b = .ok (a - b) := rfl

@[simp] theorem alu16_mul (a b : Word) : alu16 .mul a b = .ok (a * b) := rfl

/-- A Word represents every integer that its signed value is congruent to modulo `2^16`. -/
theorem eq_ofInt_of_toInt_eq_bmod {r : Word} {x : Int} (congruent : r.toInt = x.bmod (2 ^ 16)) :
    r = BitVec.ofInt 16 x :=
  BitVec.eq_of_toInt_eq (congruent.trans (BitVec.toInt_ofInt x).symm)

/-- A difference that borrows wraps once. -/
theorem sub_toNat_of_lt {a b : Word} (borrows : a.toNat < b.toNat) :
    (a - b).toNat = 2 ^ 16 + a.toNat - b.toNat := by
  rw [BitVec.toNat_sub_of_lt (BitVec.lt_def.2 borrows)]
  omega

/-- Settles O10: each result is the library's wrapped operation on Words, read as unsigned and as signed. -/
theorem aluWrappingArithmetic : Obligations.AluWrappingArithmetic := by
  intro a b
  refine ⟨⟨_, alu16_add a b, BitVec.toNat_add a b, ?signedSum⟩,
    ⟨_, alu16_sub a b, fun noBorrow => BitVec.toNat_sub_of_le (BitVec.le_def.2 noBorrow), sub_toNat_of_lt,
      ?signedDifference⟩,
    ⟨_, alu16_mul a b, BitVec.toNat_mul a b, ?signedProduct⟩⟩
  case signedSum => exact eq_ofInt_of_toInt_eq_bmod (BitVec.toInt_add a b)
  case signedDifference => exact eq_ofInt_of_toInt_eq_bmod BitVec.toInt_sub
  case signedProduct => exact eq_ofInt_of_toInt_eq_bmod (BitVec.toInt_mul a b)

/-- Settles O9, from the bits of the library's bitwise operations on Words. -/
theorem aluBitwiseOperations : Obligations.AluBitwiseOperations := by
  intro a b
  refine ⟨⟨_, alu16_and a b, fun _ _ => BitVec.getLsbD_and⟩, ⟨_, alu16_or a b, fun _ _ => BitVec.getLsbD_or⟩,
    ⟨_, alu16_xor a b, fun _ _ => BitVec.getLsbD_xor⟩, ?andExample, ?orExample, ?xorExample⟩
  case andExample => exact alu16_and 0xF0F0 0x3C3C
  case orExample => exact alu16_or 0xF0F0 0x3C3C
  case xorExample => exact alu16_xor 0xF0F0 0x3C3C

end Sys2Proof.Machine
end

section
/-! The rows of the opcode table: the fields of a row's word, and the instruction its fields stand for
(30_encoding.md R51 to R55). -/

namespace Sys2Proof

open Sys2Proof.Claims

/-- The digits R57 prints are the condition's code. -/
theorem condBits_toNat (c : Cond) : (condBits c).toNat = c.code := by
  cases c <;> rfl

theorem append_toNat {v w : Nat} (x : BitVec v) (y : BitVec w) : (x ++ y).toNat = x.toNat * 2 ^ w + y.toNat := by
  rw [BitVec.toNat_append, ← Nat.shiftLeft_add_eq_or_of_lt y.isLt, Nat.shiftLeft_eq]

/-- The bits of a row's word, weighed by their places. -/
theorem rowWord_toNat (c : BitVec 2) (memOpcode : BitVec 4) (rn rd : RegIdx) (i : BitVec 1) (src2 : BitVec 3) :
    (rowWord c memOpcode rn rd i src2).toNat =
      ((((c.toNat * 2 ^ 4 + memOpcode.toNat) * 2 ^ 3 + rn.val) * 2 ^ 3 + rd.val) * 2 ^ 1 + i.toNat) * 2 ^ 3 +
        src2.toNat := by
  simp only [rowWord, append_toNat, BitVec.toNat_ofFin]

/-- The seven fields of a Word at once, each by arithmetic on its value. -/
theorem extractFields_eq (w : Word) : extractFields w =
    ⟨w.toNat / 2 ^ 14 % 4, w.toNat / 2 ^ 13 % 2, w.toNat / 2 ^ 10 % 8, w.toNat / 2 ^ 7 % 8, w.toNat / 2 ^ 4 % 8,
      w.toNat / 2 ^ 3 % 2, w.toNat % 8⟩ := by
  rw [Fields.mk.injEq]
  exact fieldExtraction w

/-- The fields of a row's word are the row's: `mem` is the top bit of the four after the condition, the opcode the
other three. -/
theorem extractFields_rowWord (c : BitVec 2) (memOpcode : BitVec 4) (rn rd : RegIdx) (i : BitVec 1)
    (src2 : BitVec 3) :
    extractFields (rowWord c memOpcode rn rd i src2) =
      ⟨c.toNat, memOpcode.toNat / 8, memOpcode.toNat % 8, rn.val, rd.val, i.toNat, src2.toNat⟩ := by
  have condLt := c.isLt
  have memOpcodeLt := memOpcode.isLt
  have iLt := i.isLt
  have src2Lt := src2.isLt
  rw [extractFields_eq, rowWord_toNat, Fields.mk.injEq]
  omega

@[simp] theorem aluOpOfCode_code (op : AluOp) : aluOpOfCode op.code = .ok op := by
  cases op <;> rfl

@[simp] theorem regOfIndex_val (k : RegIdx) : regOfIndex k.val = .ok k :=
  regOfIndex_of_lt k.isLt

@[simp] theorem operandOfFields_iBit_src2 (b : OperandB) : operandOfFields b.iBit b.src2 = .ok b := by
  cases b with
  | reg m => exact congrArg (Except.map OperandB.reg) (regOfIndex_val m)
  | lit k => exact (if_pos k.isLt).trans (by rw [OperandB.src2, BitVec.ofNat_toNat, BitVec.setWidth_eq])

/-- The fields of a data-processing instruction decode to that instruction. -/
theorem decodeFields_dpFields (op : AluOp) (c : Cond) (rd rn : RegIdx) (b : OperandB) :
    decodeFields (dpFields op c rd rn b) = .ok (dpInstr op c rd rn b) := by
  simp only [decodeFields, dpFields, condOfCode_code, regOfIndex_val, operandOfFields_iBit_src2, aluOpOfCode_code]
  rfl

/-- The word of a data-processing row decodes to the row's instruction. -/
theorem decode_dpRow {i : BitVec 1} {src2 : BitVec 3} {b : OperandB} (op : AluOp) (c : Cond) (rd rn : RegIdx)
    (bit : i.toNat = b.iBit) (operand : src2.toNat = b.src2) :
    decode (rowWord (condBits c) (BitVec.ofNat 4 op.code) rn rd i src2) = .ok (dpInstr op c rd rn b) := by
  have opcodeLt := Laws.aluOp_code_lt op
  have memOpcode : (BitVec.ofNat 4 op.code).toNat = op.code := Nat.mod_eq_of_lt (by omega)
  rw [decode, extractFields_rowWord, condBits_toNat, memOpcode, Nat.div_eq_of_lt opcodeLt,
    Nat.mod_eq_of_lt opcodeLt, bit, operand]
  exact decodeFields_dpFields op c rd rn b

/-- Both rows of a data-processing operation decode to it: `mem` is 0 and the opcode is the operation's. -/
theorem rowsDecode_dpInstr (op : AluOp) :
    RowsDecode (BitVec.ofNat 4 op.code) (fun c rd rn m => dpInstr op c rd rn (.reg m))
      (fun c rd rn k => dpInstr op c rd rn (.lit k)) :=
  fun c rd rn => ⟨fun _ => decode_dpRow op c rd rn rfl rfl, fun _ => decode_dpRow op c rd rn rfl rfl⟩

end Sys2Proof
end

section
/-! The complete effect of a data-processing instruction whose operation yields a result (42_data_processing.md R118,
R119), and the six operations that always yield one (R110 to R114, R117). -/

namespace Sys2Proof.Machine

open Sys2Proof.Claims

theorem negFlag_iff (r : Word) : negFlag r = true ↔ 2 ^ 15 ≤ r.toNat := by
  rw [negFlag, ← BitVec.msb_eq_getLsbD_last, BitVec.msb_eq_true_iff_two_mul_ge]
  omega

theorem zeroFlag_iff (r : Word) : zeroFlag r = true ↔ r.toNat = 0 :=
  decide_eq_true_iff.trans BitVec.toNat_eq

/-- The result and its flags are written, and nothing else, whichever register `rd` is. -/
theorem writesResult_dpInstr {op : AluOp} {c : Cond} {rn : RegIdx} {b : OperandB} {s : State} {r : Word}
    (rd : RegIdx) (pass : condex c s.n s.z = true) (result : alu16 op (operandA s rn) (operandB s b) = .ok r) :
    WritesResult (dpInstr op c rd rn b) s rd r := by
  refine ⟨(s.setFlags r).writeReg rd r, ?runs, State.readReg_writeReg_same _ rd r,
    ⟨negFlag_iff r, zeroFlag_iff r⟩, ?others, ⟨fun _ => rfl, rfl, rfl⟩, ⟨rfl, rfl⟩, State.writeReg_we _ rd r⟩
  case runs => rw [exec_dpInstr, dataProcessing_ok rd pass result]
  case others => exact fun j other => State.readReg_writeReg_ne (s.setFlags r) r other

/-- An operation that yields `f` of its operands, whatever they are, writes `f` of them in both forms. -/
theorem writesResult_bothForms {op : AluOp} {f : Word → Word → Word} (yields : ∀ a b, alu16 op a b = .ok (f a b))
    (c : Cond) (rd rn : RegIdx) (s : State) (pass : condex c s.n s.z = true) :
    (∀ m : RegIdx, WritesResult (dpInstr op c rd rn (.reg m)) s rd (f (s.readReg rn) (s.readReg m))) ∧
    (∀ k : Lit, WritesResult (dpInstr op c rd rn (.lit k)) s rd (f (s.readReg rn) (k.zeroExtend 16))) :=
  ⟨fun _ => writesResult_dpInstr rd pass (yields _ _), fun _ => writesResult_dpInstr rd pass (yields _ _)⟩

theorem alu16_add_eq_ofNat (a b : Word) :
    alu16 .add a b = .ok (BitVec.ofNat 16 ((a.toNat + b.toNat) % 2 ^ 16)) :=
  (alu16_add a b).trans (congrArg Except.ok (BitVec.toNat_eq_nat.1 (BitVec.toNat_add a b)).2)

/-- The difference in the order of R113, `2 ^ 16` added so that it does not go below zero. -/
theorem sub_toNat (a b : Word) : (a - b).toNat = (2 ^ 16 + a.toNat - b.toNat) % 2 ^ 16 := by
  have bLt := b.isLt
  rw [BitVec.toNat_sub]
  omega

theorem alu16_sub_eq_ofNat (a b : Word) :
    alu16 .sub a b = .ok (BitVec.ofNat 16 ((2 ^ 16 + a.toNat - b.toNat) % 2 ^ 16)) :=
  (alu16_sub a b).trans (congrArg Except.ok (BitVec.toNat_eq_nat.1 (sub_toNat a b)).2)

theorem alu16_mul_eq_ofNat (a b : Word) :
    alu16 .mul a b = .ok (BitVec.ofNat 16 ((a.toNat * b.toNat) % 2 ^ 16)) :=
  (alu16_mul a b).trans (congrArg Except.ok (BitVec.toNat_eq_nat.1 (BitVec.toNat_mul a b)).2)

/-- Settles O12, from the rows of a data-processing operation and the effect of one that always yields a result. -/
theorem andWritesBitwiseAnd : Obligations.AndWritesBitwiseAnd :=
  ⟨rowsDecode_dpInstr .and, writesResult_bothForms alu16_and⟩

/-- Settles O13, as O12, with what OR yields. -/
theorem orWritesBitwiseOr : Obligations.OrWritesBitwiseOr :=
  ⟨rowsDecode_dpInstr .or, writesResult_bothForms alu16_or⟩

/-- Settles O14, as O12, with what ADD yields in exact arithmetic. -/
theorem addWritesWrappedSum : Obligations.AddWritesWrappedSum :=
  ⟨rowsDecode_dpInstr .add, writesResult_bothForms alu16_add_eq_ofNat⟩

/-- Settles O15, as O12, with what SUB yields in exact arithmetic. -/
theorem subWritesWrappedDifference : Obligations.SubWritesWrappedDifference :=
  ⟨rowsDecode_dpInstr .sub, writesResult_bothForms alu16_sub_eq_ofNat⟩

/-- Settles O16, as O12, with what MUL yields in exact arithmetic. -/
theorem mulWritesLowProduct : Obligations.MulWritesLowProduct :=
  ⟨rowsDecode_dpInstr .mul, writesResult_bothForms alu16_mul_eq_ofNat⟩

/-- Settles O19, as O12, with what XOR yields. -/
theorem xorWritesExclusiveOr : Obligations.XorWritesExclusiveOr :=
  ⟨rowsDecode_dpInstr .xor, writesResult_bothForms alu16_xor⟩

end Sys2Proof.Machine
end

section
/-! The rows of the memory-manipulation operations: `mem` is 1, and the opcode is `write`, `write_back`, `operation`
(30_encoding.md R55, R56). -/

namespace Sys2Proof

open Sys2Proof.Claims

/-- Taking an opcode apart inverts `MemOp.code`. -/
@[simp] theorem memOpOfCode_code (o : MemOp) : memOpOfCode o.code = .ok o := by
  obtain ⟨write, writeBack, operation⟩ := o
  cases write <;> cases writeBack <;> cases operation <;> rfl

/-- The fields of a memory-manipulation instruction decode to that instruction. -/
theorem decodeFields_mmFields (o : MemOp) (c : Cond) (rd rn : RegIdx) (b : OperandB) :
    decodeFields (mmFields o c rd rn b) = .ok (mmInstr o c rd rn b) := by
  simp only [decodeFields, mmFields, condOfCode_code, regOfIndex_val, operandOfFields_iBit_src2, memOpOfCode_code]
  rfl

/-- The word of a memory-manipulation row decodes to the row's instruction. -/
theorem decode_mmRow {i : BitVec 1} {src2 : BitVec 3} {b : OperandB} (o : MemOp) (c : Cond) (rd rn : RegIdx)
    (bit : i.toNat = b.iBit) (operand : src2.toNat = b.src2) :
    decode (rowWord (condBits c) (BitVec.ofNat 4 (8 + o.code)) rn rd i src2) = .ok (mmInstr o c rd rn b) := by
  have opcodeLt := Laws.memOp_code_lt o
  have memOpcode : (BitVec.ofNat 4 (8 + o.code)).toNat = 8 + o.code := Nat.mod_eq_of_lt (by omega)
  have memBit : (8 + o.code) / 8 = 1 := by omega
  have opcode : (8 + o.code) % 8 = o.code := by omega
  rw [decode, extractFields_rowWord, condBits_toNat, memOpcode, memBit, opcode, bit, operand]
  exact decodeFields_mmFields o c rd rn b

/-- Both rows of a memory-manipulation operation decode to it. -/
theorem rowsDecode_mmInstr (o : MemOp) :
    RowsDecode (BitVec.ofNat 4 (8 + o.code)) (fun c rd rn m => mmInstr o c rd rn (.reg m))
      (fun c rd rn k => mmInstr o c rd rn (.lit k)) :=
  fun c rd rn => ⟨fun _ => decode_mmRow o c rd rn rfl rfl, fun _ => decode_mmRow o c rd rn rfl rfl⟩

theorem encode_mmInstr (o : MemOp) (c : Cond) (rd rn : RegIdx) (b : OperandB) :
    encode (mmInstr o c rd rn b) = encodeFields (mmFields o c rd rn b) :=
  congrArg encodeFields (Machine.mmInstr_fields o c rd rn b)

end Sys2Proof
end

section
/-! A memory-manipulation instruction whose condition holds: the address stage and the access as rules of the state
(43_memory_manipulation.md R138), then the complete effect of a load, of a store and of an access out of range. -/

namespace Sys2Proof.Machine

open Sys2Proof.Claims

/-! ### The address stage -/

@[simp] theorem addressStage_we (o : MemOp) (rn : RegIdx) (a : Word) (s : State) :
    (addressStage o rn a s).rf.we = (!o.writeBack && s.rf.we) := by
  unfold addressStage
  cases o.writeBack <;> rfl

@[simp] theorem memRead_addressStage (o : MemOp) (rn : RegIdx) (a : Word) (s : State) (x : Word) :
    (addressStage o rn a s).memRead x = s.memRead x :=
  congrArg (Memory.read · x) (addressStage_dmem o rn a s)

theorem readReg_addressStage_base {o : MemOp} (writesBack : o.writeBack = true) (rn : RegIdx) (a : Word) (s : State) :
    (addressStage o rn a s).readReg rn = a := by
  rw [readReg_addressStage, if_pos ⟨writesBack, rfl⟩]

theorem readReg_addressStage_other {o : MemOp} {rn k : RegIdx} (other : o.writeBack = true → k ≠ rn) (a : Word)
    (s : State) : (addressStage o rn a s).readReg k = s.readReg k := by
  rw [readReg_addressStage, if_neg fun ⟨writesBack, same⟩ => other writesBack same]

/-- The flags are those of the address (R140). -/
theorem flagsOf_addressStage (o : MemOp) (rn : RegIdx) (a : Word) (s : State) : FlagsOf a (addressStage o rn a s) := by
  rw [FlagsOf, addressStage_n, addressStage_z]
  exact ⟨negFlag_iff a, zeroFlag_iff a⟩

theorem dataKept_addressStage (o : MemOp) (rn : RegIdx) (a : Word) (s : State) :
    DataKept s (addressStage o rn a s) := by
  refine ⟨memRead_addressStage o rn a s, ?_, ?_⟩ <;> rw [addressStage_dmem]

theorem programAndFaultKept_addressStage (o : MemOp) (rn : RegIdx) (a : Word) (s : State) :
    ProgramAndFaultKept s (addressStage o rn a s) :=
  ⟨addressStage_imem o rn a s, addressStage_fault o rn a s⟩

/-! ### The access -/

section
variable {o : MemOp} {rd : RegIdx} {addr : Word} {f : Fault} {s : State}

theorem accessStage_load {v : Word} (load : o.write = false) (found : s.memRead addr = some v) :
    accessStage o rd addr f s = s.writeReg rd v := by
  simp [accessStage, load, found]

theorem accessStage_store {t : State} (store : o.write = true) (written : s.memWrite addr (s.readReg rd) = some t) :
    accessStage o rd addr f s = t := by
  simp [accessStage, store, written]

/-- Out of range, a load and a store end alike. -/
theorem accessStage_outOfRange (outOfRange : s.dmem.size ≤ addr.toNat) :
    accessStage o rd addr f s = s.raise f := by
  cases access : o.write with
  | false => simp [accessStage, access, State.memRead_of_size_le outOfRange]
  | true => simp [accessStage, access, State.memWrite_of_size_le outOfRange]

end

/-! ### The instruction -/

section
variable {o : MemOp} {c : Cond} {rn : RegIdx} {b : OperandB} {s : State}

/-- With the condition passed, the instruction is the access after the address stage. -/
theorem exec_mmInstr_pass (rd : RegIdx) (pass : condex c s.n s.z = true) :
    exec (mmInstr o c rd rn b) s = .next (accessStage o rd (ea o.operation s rn b)
      (.dmemIndexOutOfRange (ea o.operation s rn b) (s.readReg 7 - 1) (encode (mmInstr o c rd rn b)))
      (addressStage o rn (ea o.operation s rn b) s)) := by
  rw [exec_mmInstr, encode_mmInstr, memoryManipulation, gated_pass _ pass]
  rfl

/-- A load ends in the address stage followed by the write of the Word read: at `rd = rn` that Word wins. -/
theorem loads_mmInstr (rd : RegIdx) (pass : condex c s.n s.z = true) (load : o.write = false)
    (inRange : (ea o.operation s rn b).toNat < s.dmem.size) :
    Loads (mmInstr o c rd rn b) s o.writeBack rd rn (ea o.operation s rn b) := by
  obtain ⟨v, found⟩ : ∃ v, s.memRead (ea o.operation s rn b) = some v := ⟨_, State.memRead_of_lt inRange⟩
  refine ⟨(addressStage o rn (ea o.operation s rn b) s).writeReg rd v, ?runs, ?loaded, ?base, ?others,
    flagsOf_addressStage o rn _ s, dataKept_addressStage o rn _ s, programAndFaultKept_addressStage o rn _ s,
    State.writeReg_we _ rd v⟩
  case runs => rw [exec_mmInstr_pass rd pass, accessStage_load load ((memRead_addressStage o rn _ s _).trans found)]
  case loaded => rw [found, State.readReg_writeReg_same]
  case base =>
    intro writesBack other
    rw [State.readReg_writeReg_ne _ v other, readReg_addressStage_base writesBack]
  case others =>
    intro j notLoaded notBase
    rw [State.readReg_writeReg_ne _ v notLoaded, readReg_addressStage_other notBase]

/-- A store reads `x[rd]` after the address stage: at `rd = rn` a form that writes back stores the new base. -/
theorem stores_mmInstr (rd : RegIdx) (pass : condex c s.n s.z = true) (store : o.write = true)
    (inRange : (ea o.operation s rn b).toNat < s.dmem.size) :
    Stores (mmInstr o c rd rn b) s o.writeBack rd rn (ea o.operation s rn b) := by
  have inRange' : (ea o.operation s rn b).toNat < (addressStage o rn (ea o.operation s rn b) s).dmem.size := by
    rwa [addressStage_dmem]
  obtain ⟨t, written⟩ := State.memWrite_of_lt inRange' ((addressStage o rn (ea o.operation s rn b) s).readReg rd)
  obtain ⟨latchLow, sizeKept⟩ := State.memWrite_latch_size written
  obtain ⟨rfKept, ⟨nKept, zKept⟩, imemKept, faultKept⟩ := State.memWrite_frame written
  have reads := State.memRead_memWrite written
  have regs : ∀ j, t.readReg j = (addressStage o rn (ea o.operation s rn b) s).readReg j :=
    fun j => congrArg (RegFile.read · j) rfKept
  refine ⟨t, ?runs, ?stored, ?otherCells, ?base, ?others, ?flags, ?size, latchLow, ?latch, ?program⟩
  case runs => rw [exec_mmInstr_pass rd pass, accessStage_store store written]
  case stored => rw [reads, if_pos rfl, readReg_addressStage]
  case otherCells => exact fun a other => by rw [reads, if_neg other, memRead_addressStage]
  case base => exact fun writesBack => by rw [regs, readReg_addressStage_base writesBack]
  case others => exact fun j notBase => by rw [regs, readReg_addressStage_other notBase]
  case flags =>
    rw [FlagsOf, nKept, zKept]
    exact flagsOf_addressStage o rn _ s
  case size => rw [sizeKept, addressStage_dmem]
  case latch => rw [rfKept, addressStage_we]
  case program =>
    rw [ProgramAndFaultKept, imemKept, faultKept]
    exact programAndFaultKept_addressStage o rn _ s

/-- Out of range the address stage is done and the fault is recorded. -/
theorem accessFaults_mmInstr (rd : RegIdx) (pass : condex c s.n s.z = true)
    (outOfRange : s.dmem.size ≤ (ea o.operation s rn b).toNat) :
    AccessFaults (mmInstr o c rd rn b) s o.writeBack rn (ea o.operation s rn b) := by
  refine ⟨(addressStage o rn (ea o.operation s rn b) s).raise _, ?runs, State.raise_fault _ _,
    flagsOf_addressStage o rn _ s, fun writesBack => readReg_addressStage_base writesBack rn _ s,
    fun _ notBase => readReg_addressStage_other notBase _ s, addressStage_we o rn _ s,
    dataKept_addressStage o rn _ s, addressStage_imem o rn _ s⟩
  case runs =>
    rw [exec_mmInstr_pass rd pass, accessStage_outOfRange]
    rwa [addressStage_dmem]

end

end Sys2Proof.Machine
end

section
/-! The eight memory-manipulation operations (43_memory_manipulation.md R130 to R137), in both forms. They differ in
`MemOp` only, so one statement over `MemOp` covers them. -/

namespace Sys2Proof.Machine

open Sys2Proof.Claims

/-- The address in exact arithmetic: `a` plus or minus `b`, modulo `2 ^ 16` (R139). -/
def exactAddress (o : AddrOp) (a b : Nat) : Nat :=
  match o with
  | .add => (a + b) % 2 ^ 16
  | .sub => (2 ^ 16 + a - b) % 2 ^ 16

/-- What a memory-manipulation instruction does with an address in range, by the `write` bit of its opcode. -/
def Accesses (o : MemOp) (i : Instr) (s : State) (rd rn : RegIdx) (addr : Word) : Prop :=
  match o.write with
  | false => Loads i s o.writeBack rd rn addr
  | true => Stores i s o.writeBack rd rn addr

/-- One form of an operation, its operand B having the value `bValue`: the effective address, and what the
instruction does on either side of `DMEM_SIZE`. -/
def FormMeaning (o : MemOp) (c : Cond) (rd rn : RegIdx) (b : OperandB) (bValue : Nat) (s : State) : Prop :=
  (ea o.operation s rn b).toNat = exactAddress o.operation (s.readReg rn).toNat bValue ∧
  ((ea o.operation s rn b).toNat < s.dmem.size →
    Accesses o (mmInstr o c rd rn b) s rd rn (ea o.operation s rn b)) ∧
  (s.dmem.size ≤ (ea o.operation s rn b).toNat →
    AccessFaults (mmInstr o c rd rn b) s o.writeBack rn (ea o.operation s rn b))

theorem ea_toNat (o : AddrOp) (s : State) (rn : RegIdx) (b : OperandB) :
    (ea o s rn b).toNat = exactAddress o (s.readReg rn).toNat (operandB s b).toNat := by
  cases o with
  | add => exact BitVec.toNat_add _ _
  | sub => exact sub_toNat _ _

theorem accesses_mmInstr {o : MemOp} {c : Cond} {rn : RegIdx} {b : OperandB} {s : State} (rd : RegIdx)
    (pass : condex c s.n s.z = true) (inRange : (ea o.operation s rn b).toNat < s.dmem.size) :
    Accesses o (mmInstr o c rd rn b) s rd rn (ea o.operation s rn b) := by
  unfold Accesses
  split
  case h_1 load => exact loads_mmInstr rd pass load inRange
  case h_2 store => exact stores_mmInstr rd pass store inRange

theorem formMeaning_mmInstr (o : MemOp) {c : Cond} {s : State} (pass : condex c s.n s.z = true) (rd rn : RegIdx)
    (b : OperandB) : FormMeaning o c rd rn b (operandB s b).toNat s :=
  ⟨ea_toNat o.operation s rn b, accesses_mmInstr rd pass, accessFaults_mmInstr rd pass⟩

/-- The register form with the register's value, and the literal form with the literal's. -/
theorem formMeaning_bothForms (o : MemOp) (c : Cond) (rd rn : RegIdx) (s : State) (pass : condex c s.n s.z = true) :
    (∀ m : RegIdx, FormMeaning o c rd rn (.reg m) (s.readReg m).toNat s) ∧
    (∀ k : Lit, FormMeaning o c rd rn (.lit k) k.toNat s) :=
  ⟨fun m => formMeaning_mmInstr o pass rd rn (.reg m),
    fun k => operandB_lit_toNat s k ▸ formMeaning_mmInstr o pass rd rn (.lit k)⟩

/-- Settles O20, from the rows of a memory-manipulation operation and the meaning of its two forms. -/
theorem ldaddLoadsFromSum : Obligations.LdaddLoadsFromSum :=
  ⟨rowsDecode_mmInstr ⟨false, false, .add⟩, formMeaning_bothForms ⟨false, false, .add⟩⟩

/-- Settles O21, as O20, for the load that subtracts. -/
theorem ldsubLoadsFromDifference : Obligations.LdsubLoadsFromDifference :=
  ⟨rowsDecode_mmInstr ⟨false, false, .sub⟩, formMeaning_bothForms ⟨false, false, .sub⟩⟩

/-- Settles O22, as O20, for the load that adds and writes back. -/
theorem ldaddwLoadsFromSumAndWritesBack : Obligations.LdaddwLoadsFromSumAndWritesBack :=
  ⟨rowsDecode_mmInstr ⟨false, true, .add⟩, formMeaning_bothForms ⟨false, true, .add⟩⟩

/-- Settles O23, as O20, for the load that subtracts and writes back. -/
theorem ldsubwLoadsFromDifferenceAndWritesBack : Obligations.LdsubwLoadsFromDifferenceAndWritesBack :=
  ⟨rowsDecode_mmInstr ⟨false, true, .sub⟩, formMeaning_bothForms ⟨false, true, .sub⟩⟩

/-- Settles O24, as O20, for the store that adds. -/
theorem staddStoresToSum : Obligations.StaddStoresToSum :=
  ⟨rowsDecode_mmInstr ⟨true, false, .add⟩, formMeaning_bothForms ⟨true, false, .add⟩⟩

/-- Settles O25, as O20, for the store that subtracts. -/
theorem stsubStoresToDifference : Obligations.StsubStoresToDifference :=
  ⟨rowsDecode_mmInstr ⟨true, false, .sub⟩, formMeaning_bothForms ⟨true, false, .sub⟩⟩

/-- Settles O26, as O20, for the store that adds and writes back. -/
theorem staddwStoresToSumAndWritesBack : Obligations.StaddwStoresToSumAndWritesBack :=
  ⟨rowsDecode_mmInstr ⟨true, true, .add⟩, formMeaning_bothForms ⟨true, true, .add⟩⟩

/-- Settles O27, as O20, for the store that subtracts and writes back. -/
theorem stsubwStoresToDifferenceAndWritesBack : Obligations.StsubwStoresToDifferenceAndWritesBack :=
  ⟨rowsDecode_mmInstr ⟨true, true, .sub⟩, formMeaning_bothForms ⟨true, true, .sub⟩⟩

end Sys2Proof.Machine
end

section
/-! The encoder: the fields tile the Word, so extraction and encoding are inverse, and decoding inverts encoding
(30_encoding.md R50 to R53, R58). -/

namespace Sys2Proof

open Sys2Proof.Machine Sys2Proof.Claims

/-- A field shifted into its place above `low`: where `low` lies below that place, the disjunction is the sum. -/
theorem shiftLeft_or_eq_add (field place : Nat) {low : Nat} (below : low < 2 ^ place) :
    field <<< place ||| low = field * 2 ^ place + low := by
  rw [← Nat.shiftLeft_add_eq_or_of_lt below, Nat.shiftLeft_eq]

/-- The word of a record in range, its fields weighed by their places. -/
theorem encodeFields_toNat {f : Fields} (wf : f.wf = true) : (encodeFields f).toNat =
    f.cond * 2 ^ 14 + (f.mem * 2 ^ 13 + (f.opcode * 2 ^ 10 + (f.rn * 2 ^ 7 + (f.rd * 2 ^ 4 +
      (f.i * 2 ^ 3 + f.src2))))) := by
  obtain ⟨condLt, memLt, opcodeLt, rnLt, rdLt, iLt, src2Lt⟩ := (Fields.wf_iff f).1 wf
  simp only [encodeFields, BitVec.toNat_ofNat, Nat.or_assoc]
  rw [shiftLeft_or_eq_add _ 3 src2Lt, shiftLeft_or_eq_add _ 4 (by omega), shiftLeft_or_eq_add _ 7 (by omega),
    shiftLeft_or_eq_add _ 10 (by omega), shiftLeft_or_eq_add _ 13 (by omega), shiftLeft_or_eq_add _ 14 (by omega)]
  omega

theorem ofNat_shiftLeft (field place : Nat) : BitVec.ofNat 16 (field <<< place) = BitVec.ofNat 16 field <<< place := by
  rw [← BitVec.toNat_inj, BitVec.toNat_shiftLeft, BitVec.toNat_ofNat, BitVec.toNat_ofNat, Nat.shiftLeft_eq,
    Nat.shiftLeft_eq, Nat.mod_mul_mod]

/-- Encoding then extraction (30_encoding.md R53). -/
theorem extractFields_encodeFields {f : Fields} (wf : f.wf = true) : extractFields (encodeFields f) = f := by
  obtain ⟨cond, mem, opcode, rn, rd, i, src2⟩ := f
  have value := encodeFields_toNat wf
  simp only [Fields.wf_iff] at wf value
  rw [extractFields_eq, value, Fields.mk.injEq]
  omega

/-- Extraction then encoding: no bit of a Word is lost. -/
theorem encodeFields_extractFields (w : Word) : encodeFields (extractFields w) = w := by
  have wLt := w.isLt
  rw [← BitVec.toNat_inj, encodeFields_toNat (extractFields_wf w), extractFields_cond, extractFields_mem,
    extractFields_opcode, extractFields_rn, extractFields_rd, extractFields_i, extractFields_src2]
  omega

/-- Settles O3: the two round trips, by arithmetic on the places of the fields. -/
theorem fieldsTileTheWord : Obligations.FieldsTileTheWord := by
  refine ⟨fun f wf => ⟨?layout, extractFields_encodeFields wf⟩,
    fun w => ⟨extractFields_wf w, encodeFields_extractFields w⟩⟩
  case layout => simp only [encodeFields, BitVec.ofNat_or, ofNat_shiftLeft]

theorem Instr.fields_wf (i : Instr) : i.fields.wf = true := by
  rcases instr_cases i with ⟨op, c, rd, rn, b, rfl⟩ | ⟨o, c, rd, rn, b, rfl⟩
  · rw [dpInstr_fields]
    exact Laws.fields_wf_dp op c rd rn b
  · rw [mmInstr_fields]
    exact Laws.fields_wf_mm o c rd rn b

theorem decodeFields_fields (i : Instr) : decodeFields i.fields = .ok i := by
  rcases instr_cases i with ⟨op, c, rd, rn, b, rfl⟩ | ⟨o, c, rd, rn, b, rfl⟩
  · rw [dpInstr_fields, decodeFields_dpFields]
  · rw [mmInstr_fields, decodeFields_mmFields]

/-- Settles O4: extraction gives back the fields encoded, and they decode to the instruction. -/
theorem decodeInvertsEncode : Obligations.DecodeInvertsEncode := by
  intro i
  rw [decode, encode, extractFields_encodeFields i.fields_wf, decodeFields_fields]

/-- The instruction a Word decodes to encodes to that Word. -/
theorem encode_of_decode {w : Word} {i : Instr} (decoded : decode w = .ok i) : encode i = w := by
  obtain ⟨j, decoded', fields⟩ := decode_total w
  obtain rfl : j = i := Except.ok.inj (decoded'.symm.trans decoded)
  rw [encode, fields, encodeFields_extractFields]

/-- Settles O1: each printed word is the encoding of its instruction. -/
theorem specWordsDecode : Obligations.SpecWordsDecode :=
  ⟨decodeInvertsEncode (.andReg .al 3 1 2), decodeInvertsEncode (.addLit .al 1 0 5),
    decodeInvertsEncode (.divLit .al 5 1 2), decodeInvertsEncode (.xorLit .z 1 1 7),
    decodeInvertsEncode (.ldaddLit .al 4 2 3), decodeInvertsEncode (.ldsubwLit .al 4 2 1),
    decodeInvertsEncode (.staddLit .al 3 2 0), decodeInvertsEncode (.stsubwLit .p 7 7 7)⟩

/-- AND of `R0` with itself into `R0` changes no register. -/
theorem exec_zeroWord (s : State) : ∃ t, exec (.andReg .al 0 0 0) s = .next t ∧
    (∀ k, t.readReg k = s.readReg k) ∧ FlagsOf (s.readReg 0) t := by
  obtain ⟨t, runs, result, flags, others, -⟩ := (andWritesBitwiseAnd.2 .al 0 0 s rfl).1 0
  rw [BitVec.and_self] at result flags
  refine ⟨t, runs, fun k => ?_, flags⟩
  by_cases isZero : k = 0
  · rw [isZero, result]
  · exact others k isZero

/-- Settles O5: decoding is total, and what a Word decodes to encodes to it. -/
theorem everyWordIsOneInstruction : Obligations.EveryWordIsOneInstruction := by
  refine ⟨fun w => ?unique, decodeInvertsEncode (.andReg .al 0 0 0), exec_zeroWord,
    decodeInvertsEncode (.stsubwLit .p 7 7 7)⟩
  case unique =>
    obtain ⟨i, decoded, -⟩ := decode_total w
    exact ⟨i, decoded, encode_of_decode decoded⟩

end Sys2Proof
end

section
/-! Division: the two operations that can fault, with the quotient and remainder they yield for a nonzero divisor
(41_alu.md R96, R97; 42_data_processing.md R115, R116). -/

namespace Sys2Proof.Machine

open Sys2Proof.Claims

theorem alu16_div {b : Word} (nonzero : b ≠ 0) (a : Word) : alu16 .div a b = .ok (a / b) :=
  if_neg nonzero

theorem alu16_rem {b : Word} (nonzero : b ≠ 0) (a : Word) : alu16 .rem a b = .ok (a % b) :=
  if_neg nonzero

/-- DIV and REM raise on operand B zero, each naming itself. -/
theorem alu16_div_rem_zero (a : Word) {b : Word} (zero : b = 0) :
    alu16 .div a b = .error .div ∧ alu16 .rem a b = .error .rem :=
  ⟨(alu16_error_iff ..).2 ⟨zero, .inl ⟨rfl, rfl⟩⟩, (alu16_error_iff ..).2 ⟨zero, .inr ⟨rfl, rfl⟩⟩⟩

theorem toNat_pos_of_ne_zero {b : Word} (nonzero : b ≠ 0) : 0 < b.toNat :=
  Nat.pos_of_ne_zero fun zero => nonzero (BitVec.eq_of_toNat_eq zero)

/-- Settles O11: the results are the quotient and remainder of the Words as numbers, and `alu16_error_iff` says when
there is none. -/
theorem aluDivisionLaw : Obligations.AluDivisionLaw := by
  refine ⟨fun a b nonzero => ?law, fun a => alu16_div_rem_zero a rfl, fun op a b d fault => ?only⟩
  case law =>
    refine ⟨_, _, alu16_div nonzero a, alu16_rem nonzero a, ?_, ?_⟩
    · rw [BitVec.toNat_udiv, BitVec.toNat_umod, Nat.div_add_mod]
    · rw [BitVec.toNat_umod]
      exact Nat.mod_lt _ (toNat_pos_of_ne_zero nonzero)
  case only =>
    obtain ⟨zero, which⟩ := (alu16_error_iff op a b d).1 fault
    exact ⟨zero, which.imp And.left And.left⟩

theorem alu16_div_eq_ofNat (a : Word) {b : Word} (nonzero : b ≠ 0) :
    alu16 .div a b = .ok (BitVec.ofNat 16 (a.toNat / b.toNat)) := by
  rw [alu16_div nonzero, BitVec.udiv_def]

theorem alu16_rem_eq_ofNat (a : Word) {b : Word} (nonzero : b ≠ 0) :
    alu16 .rem a b = .ok (BitVec.ofNat 16 (a.toNat % b.toNat)) := by
  rw [alu16_rem nonzero, BitVec.umod_def]

/-- A literal and the Word it is extended to are zero together. -/
theorem operandB_lit_eq_zero_iff (s : State) (k : Lit) : operandB s (.lit k) = 0 ↔ k = 0 := by
  rw [BitVec.toNat_eq, operandB_lit_toNat, BitVec.toNat_eq]
  rfl

/-- As `writesResult_bothForms`, for an operation that yields a result of a nonzero operand B. -/
theorem writesResult_bothForms_of_ne_zero {op : AluOp} {f : Word → Word → Word}
    (yields : ∀ a {b}, b ≠ 0 → alu16 op a b = .ok (f a b)) (c : Cond) (rd rn : RegIdx) (s : State)
    (pass : condex c s.n s.z = true) :
    (∀ m : RegIdx, s.readReg m ≠ 0 →
      WritesResult (dpInstr op c rd rn (.reg m)) s rd (f (s.readReg rn) (s.readReg m))) ∧
    (∀ k : Lit, k ≠ 0 → WritesResult (dpInstr op c rd rn (.lit k)) s rd (f (s.readReg rn) (k.zeroExtend 16))) :=
  ⟨fun _ nonzero => writesResult_dpInstr rd pass (yields _ nonzero),
    fun k nonzero => writesResult_dpInstr rd pass (yields _ (mt (operandB_lit_eq_zero_iff s k).1 nonzero))⟩

/-- Settles O17, from the rows of a data-processing operation and the effect of one that yields a quotient. -/
theorem divWritesQuotient : Obligations.DivWritesQuotient :=
  ⟨rowsDecode_dpInstr .div, writesResult_bothForms_of_ne_zero alu16_div_eq_ofNat⟩

/-- Settles O18, as O17, with the remainder. -/
theorem remWritesRemainder : Obligations.RemWritesRemainder :=
  ⟨rowsDecode_dpInstr .rem, writesResult_bothForms_of_ne_zero alu16_rem_eq_ofNat⟩

end Sys2Proof.Machine
end

section
/-! Addresses are ALU results (43_memory_manipulation.md R138, R139). -/

namespace Sys2Proof.Machine

open Sys2Proof.Claims

/-- The opcode an address is computed with names its ALU operation (30_encoding.md R56). -/
theorem aluOpOfCode_addressAluOp (o : AddrOp) : aluOpOfCode (0b010 ||| o.code) = .ok (addressAluOp o) := by
  rw [← addressAluOp_code, aluOpOfCode_code]

/-- Settles O28: the address in exact arithmetic, and as the result of its ALU operation. -/
theorem effectiveAddressWraps : Obligations.EffectiveAddressWraps := by
  intro s rn b
  refine ⟨ea_toNat .add s rn b, ea_toNat .sub s rn b, fun _ => rfl, operandB_lit_toNat s, fun o => ?alu⟩
  case alu =>
    exact ⟨aluOpOfCode_addressAluOp o, alu16_addressAluOp o _ _, fun fullSize => fullSize ▸ (ea o s rn b).isLt⟩

end Sys2Proof.Machine
end

section
/-! The memory contract (20_memory.md R31), and the canonical form as plain data: a list of cells is determined by
what it reads as. -/

namespace Sys2Proof.Machine

theorem Memory.read_of_lt {m : Memory} {a : Word} (inRange : a.toNat < m.size) :
    m.read a = some (cellsGet m.cells a.toNat) :=
  if_pos inRange

theorem Memory.read_of_size_le {m : Memory} {a : Word} (outOfRange : m.size ≤ a.toNat) : m.read a = none :=
  if_neg (Nat.not_lt.2 outOfRange)

/-- The range is tested before the latch (92_eei_decisions.md D7). -/
theorem Memory.write_of_size_le {m : Memory} {a : Word} (outOfRange : m.size ≤ a.toNat) (v : Word) :
    m.write a v = none :=
  if_neg (Nat.not_lt.2 outOfRange)

theorem Memory.write_of_latch_low {m : Memory} {a : Word} (inRange : a.toNat < m.size) (low : m.we = false)
    (v : Word) : m.write a v = some m := by
  simp [Memory.write, inRange, low]

theorem Memory.write_of_latch_set {m : Memory} {a : Word} (inRange : a.toNat < m.size) (high : m.we = true)
    (v : Word) : m.write a v = some { m with cells := cellsSet m.cells a.toNat v } := by
  simp [Memory.write, inRange, high]

theorem Memory.read_cellsSet {m : Memory} {a : Word} (inRange : a.toNat < m.size) (v b : Word) :
    ({ m with cells := cellsSet m.cells a.toNat v } : Memory).read b = if b = a then some v else m.read b := by
  simp only [Memory.read, cellsGet_cellsSet, ← BitVec.toNat_eq]
  by_cases same : b = a <;> simp [same, inRange]

/-- Settles O44, from what `read` and `write` answer on either side of the size and by the latch. -/
theorem memoryContract : Obligations.MemoryContract := by
  intro m a v
  refine ⟨fun inRange => ⟨_, Memory.read_of_lt inRange⟩,
    fun outOfRange => ⟨Memory.read_of_size_le outOfRange, Memory.write_of_size_le outOfRange v⟩,
    fun inRange low => Memory.write_of_latch_low inRange low v,
    fun inRange high => ⟨_, Memory.write_of_latch_set inRange high v, rfl, rfl, Memory.read_cellsSet inRange v⟩,
    fun _ => ⟨rfl, rfl, fun _ => rfl⟩⟩

/-! ### The canonical form -/

theorem cellsWf_cons {size lo a : Nat} {v : Word} {t : List Cell} (wf : cellsWf size lo ((a, v) :: t) = true) :
    lo ≤ a ∧ a < size ∧ v ≠ 0#16 ∧ cellsWf size (a + 1) t = true := by
  simpa only [cellsWf, Bool.and_eq_true, decide_eq_true_eq, and_assoc] using wf

/-- Nothing is listed below the first index. -/
theorem cellsGet_of_lt_lo {size lo a : Nat} {cells : List Cell} (wf : cellsWf size lo cells = true) (below : a < lo) :
    cellsGet cells a = 0#16 := by
  refine cellsGet_of_not_mem cells a fun listed => ?_
  obtain ⟨c, member, rfl⟩ := List.mem_map.1 listed
  exact absurd (cellsWf_le_of_mem wf c member) (Nat.not_le.2 below)

/-- Nothing is listed at or above the size. -/
theorem cellsGet_of_size_le {size a : Nat} (cells : List Cell) : ∀ {lo}, cellsWf size lo cells = true → size ≤ a →
    cellsGet cells a = 0#16 := by
  induction cells with
  | nil => exact fun _ _ => rfl
  | cons c t ih =>
    intro lo wf above
    obtain ⟨b, v⟩ := c
    obtain ⟨-, inRange, -, tail⟩ := cellsWf_cons wf
    rw [cellsGet, if_neg (by omega), ih tail above]

theorem cellsGet_head (a : Nat) (v : Word) (t : List Cell) : cellsGet ((a, v) :: t) a = v := if_pos rfl

theorem cellsGet_tail {a b : Nat} (other : a ≠ b) (v : Word) (t : List Cell) :
    cellsGet ((a, v) :: t) b = cellsGet t b :=
  if_neg other

/-- The first index listed is the first that reads as nonzero: a list that reads the same cannot begin above it. -/
theorem head_le_of_reads {size size' lo lo' a b : Nat} {v u : Word} {t r : List Cell}
    (wf : cellsWf size lo ((a, v) :: t) = true) (wf' : cellsWf size' lo' ((b, u) :: r) = true)
    (reads : ∀ x, cellsGet ((a, v) :: t) x = cellsGet ((b, u) :: r) x) : b ≤ a := by
  by_contra above
  obtain ⟨-, -, nonzero, -⟩ := cellsWf_cons wf
  obtain ⟨-, -, -, tail'⟩ := cellsWf_cons wf'
  refine nonzero ?_
  rw [← cellsGet_head a v t, reads, cellsGet_tail (by omega), cellsGet_of_lt_lo tail' (by omega)]

/-- Two canonical lists that read the same are the same list. -/
theorem cells_eq_of_reads {size size' : Nat} (xs : List Cell) : ∀ {lo lo'} (ys : List Cell), cellsWf size lo xs = true →
    cellsWf size' lo' ys = true → (∀ x, cellsGet xs x = cellsGet ys x) → xs = ys := by
  induction xs with
  | nil =>
    rintro _ _ (_ | ⟨⟨b, u⟩, r⟩) _ wf' reads
    · rfl
    · obtain ⟨-, -, nonzero, -⟩ := cellsWf_cons wf'
      exact absurd ((reads b).trans (cellsGet_head b u r)).symm nonzero
  | cons c t ih =>
    obtain ⟨a, v⟩ := c
    rintro _ _ (_ | ⟨⟨b, u⟩, r⟩) wf wf' reads
    · obtain ⟨-, -, nonzero, -⟩ := cellsWf_cons wf
      exact absurd ((cellsGet_head a v t).symm.trans (reads a)) nonzero
    · obtain rfl : a = b :=
        Nat.le_antisymm (head_le_of_reads wf' wf fun x => (reads x).symm) (head_le_of_reads wf wf' reads)
      obtain ⟨-, -, -, tail⟩ := cellsWf_cons wf
      obtain ⟨-, -, -, tail'⟩ := cellsWf_cons wf'
      obtain rfl : v = u := (cellsGet_head a v t).symm.trans ((reads a).trans (cellsGet_head a u r))
      have tailReads : ∀ x, cellsGet t x = cellsGet r x := by
        intro x
        by_cases head : a = x
        · rw [cellsGet_of_lt_lo tail (by omega), cellsGet_of_lt_lo tail' (by omega)]
        · rw [← cellsGet_tail head v t, reads x, cellsGet_tail head]
      rw [ih r tail tail' tailReads]

/-- Reads at every Word determine the reads at every index: beyond the size both lists read as 0x0000. -/
theorem cellsGet_eq_of_read_eq {m m' : Memory} (wf : m.wf = true) (wf' : m'.wf = true) (sizes : m.size = m'.size)
    (small : m.size ≤ 2 ^ 16) (reads : ∀ a : Word, m.read a = m'.read a) (x : Nat) :
    cellsGet m.cells x = cellsGet m'.cells x := by
  by_cases inRange : x < m.size
  · have word : (BitVec.ofNat 16 x).toNat = x := Nat.mod_eq_of_lt (by omega)
    have read := reads (BitVec.ofNat 16 x)
    rw [Memory.read_of_lt (by omega), Memory.read_of_lt (by omega), word] at read
    exact Option.some.inj read
  · rw [cellsGet_of_size_le m.cells wf (by omega), cellsGet_of_size_le m'.cells wf' (by omega)]

/-- Settles O46: canonical cell lists that read the same are the same list. -/
theorem memoriesAreDeterminedByTheirReads : Obligations.MemoriesAreDeterminedByTheirReads := by
  intro m m' wf wf' sizes small latches reads
  have cells := cells_eq_of_reads m.cells m'.cells wf wf' (cellsGet_eq_of_read_eq wf wf' sizes small reads)
  cases m
  cases m'
  rw [Memory.mk.injEq]
  exact ⟨sizes, cells, latches⟩

end Sys2Proof.Machine
end

section
/-! What an instruction does, as one relation: the six effects of the dispatch stage (40_cycle_and_decode.md R77), and
with the fetch stage before it the three things an unfaulted step can be (R70). The rules of the whole machine below
are case splits over these. -/

namespace Sys2Proof.Machine

open Sys2Proof.Claims

/-- `Effect s i t`: run from `s`, the state the fetch stage left, the instruction `i` leaves `t`. -/
inductive Effect (s : State) : Instr → State → Prop where
  | skip {i} (fails : condex i.cond s.n s.z = false) : Effect s i s
  | result {op c rn b r} (rd : RegIdx) (pass : condex c s.n s.z = true)
      (yields : alu16 op (operandA s rn) (operandB s b) = .ok r) :
      Effect s (dpInstr op c rd rn b) ((s.setFlags r).writeReg rd r)
  | divisionByZero {op c rn b d} (rd : RegIdx) (pass : condex c s.n s.z = true)
      (raises : alu16 op (operandA s rn) (operandB s b) = .error d) :
      Effect s (dpInstr op c rd rn b)
        (s.raise (.divideByZero d (s.readReg rn) (s.readReg 7 - 1) (encode (dpInstr op c rd rn b))))
  | load {o c rn b v} (rd : RegIdx) (pass : condex c s.n s.z = true) (load : o.write = false)
      (found : s.memRead (ea o.operation s rn b) = some v) :
      Effect s (mmInstr o c rd rn b) ((addressStage o rn (ea o.operation s rn b) s).writeReg rd v)
  | store {o c rd rn b t} (pass : condex c s.n s.z = true) (store : o.write = true)
      (written : (addressStage o rn (ea o.operation s rn b) s).memWrite (ea o.operation s rn b)
        ((addressStage o rn (ea o.operation s rn b) s).readReg rd) = some t) :
      Effect s (mmInstr o c rd rn b) t
  | outOfRange {o c rn b} (rd : RegIdx) (pass : condex c s.n s.z = true)
      (beyond : s.dmem.size ≤ (ea o.operation s rn b).toNat) :
      Effect s (mmInstr o c rd rn b) ((addressStage o rn (ea o.operation s rn b) s).raise
        (.dmemIndexOutOfRange (ea o.operation s rn b) (s.readReg 7 - 1) (encode (mmInstr o c rd rn b))))

theorem encode_dpInstr (op : AluOp) (c : Cond) (rd rn : RegIdx) (b : OperandB) :
    encode (dpInstr op c rd rn b) = encodeFields (dpFields op c rd rn b) :=
  congrArg encodeFields (dpInstr_fields op c rd rn b)

theorem effect_dataProcessing (op : AluOp) (c : Cond) (rd rn : RegIdx) (b : OperandB) (s : State) :
    Effect s (dpInstr op c rd rn b) (dataProcessing op c rd rn b s) := by
  rcases dataProcessing_cases op c rd rn b s with
    ⟨fails, run⟩ | ⟨r, pass, yields, run⟩ | ⟨d, pass, raises, run⟩ <;> rw [run]
  · exact .skip ((congrArg (condex · s.n s.z) (dpInstr_cond op c rd rn b)).trans fails)
  · exact .result rd pass yields
  · rw [← encode_dpInstr]
    exact .divisionByZero rd pass raises

theorem effect_memoryManipulation (o : MemOp) (c : Cond) (rd rn : RegIdx) (b : OperandB) (s : State) :
    Effect s (mmInstr o c rd rn b) (memoryManipulation o c rd rn b s) := by
  rcases memoryManipulation_cases o c rd rn b s with
    ⟨fails, run⟩ | ⟨v, pass, load, found, run⟩ | ⟨t, pass, store, written, run⟩ | ⟨pass, beyond, run⟩ <;> rw [run]
  · exact .skip ((congrArg (condex · s.n s.z) (mmInstr_cond o c rd rn b)).trans fails)
  · exact .load rd pass load found
  · exact .store pass store written
  · rw [← encode_mmInstr]
    exact .outOfRange rd pass beyond

/-- Every instruction has one of the six effects. -/
theorem effect_of_exec {i : Instr} {s t : State} (runs : exec i s = .next t) : Effect s i t := by
  rcases instr_cases i with ⟨op, c, rd, rn, b, rfl⟩ | ⟨o, c, rd, rn, b, rfl⟩
  · obtain rfl := Host.Outcome.next.inj ((exec_dpInstr op c rd rn b s).symm.trans runs)
    exact effect_dataProcessing op c rd rn b s
  · obtain rfl := Host.Outcome.next.inj ((exec_mmInstr o c rd rn b s).symm.trans runs)
    exact effect_memoryManipulation o c rd rn b s

/-- Settles O31: both paths are behind the gate. -/
theorem failedConditionSkipsEveryInstruction : Obligations.FailedConditionSkipsEveryInstruction := by
  intro i s fails
  rcases instr_cases i with ⟨op, c, rd, rn, b, rfl⟩ | ⟨o, c, rd, rn, b, rfl⟩
  · rw [dpInstr_cond] at fails
    rw [exec_dpInstr, dataProcessing, gated_skip _ fails]
  · rw [mmInstr_cond] at fails
    rw [exec_mmInstr, memoryManipulation, gated_skip _ fails]

/-- Each effect is what the instruction does: the relation and `exec` agree. -/
theorem exec_of_effect {i : Instr} {s t : State} (effect : Effect s i t) : exec i s = .next t := by
  cases effect with
  | skip fails => exact failedConditionSkipsEveryInstruction i s fails
  | result rd pass yields => rw [exec_dpInstr, dataProcessing_ok rd pass yields]
  | divisionByZero rd pass raises =>
    rw [exec_dpInstr, dataProcessing_error rd pass raises, encode_dpInstr]
    rfl
  | load rd pass load found =>
    rw [exec_mmInstr_pass rd pass, accessStage_load load ((memRead_addressStage ..).trans found)]
  | store pass store written => rw [exec_mmInstr_pass _ pass, accessStage_store store written]
  | outOfRange rd pass beyond =>
    rw [exec_mmInstr_pass rd pass, accessStage_outOfRange]
    rwa [addressStage_dmem]

/-! ### The step -/

theorem step_of_fault {s : State} {f : Fault} (faulted : s.fault = some f) : step s = .fault f := by
  simp [step, faulted]

theorem step_of_fetched {s : State} {w : Word} {i : Instr} (unfaulted : s.fault = none)
    (fetched : s.iFetch s.pc = some w) (decoded : decode w = .ok i) : step s = exec i s.advancePc := by
  simp [step, unfaulted, State.fetch_of_some fetched, decoded]

/-- An unfaulted step is a fetch out of range or the instruction of the word fetched; no word is rejected. -/
theorem step_unfaulted_cases {s : State} (unfaulted : s.fault = none) :
    (s.iFetch s.pc = none ∧ step s = .next (s.advancePc.raise (.imemIndexOutOfRange s.pc))) ∨
    (∃ w i, s.iFetch s.pc = some w ∧ decode w = .ok i ∧ step s = exec i s.advancePc) := by
  cases fetched : s.iFetch s.pc with
  | none => exact .inl ⟨rfl, step_of_iFetch_none unfaulted fetched⟩
  | some w =>
    obtain ⟨i, decoded, -⟩ := decode_total w
    exact .inr ⟨w, i, rfl, decoded, step_of_fetched unfaulted fetched decoded⟩

/-- A step that answers a next state is a fetch out of range, or the effect of the instruction fetched on the state
the fetch stage leaves. -/
theorem step_next_cases {s t : State} (steps : step s = .next t) : s.fault = none ∧
    ((s.imem.size ≤ s.pc.toNat ∧ t = s.advancePc.raise (.imemIndexOutOfRange s.pc)) ∨
      ∃ w i, s.iFetch s.pc = some w ∧ decode w = .ok i ∧ Effect s.advancePc i t) := by
  cases fault : s.fault with
  | some f => simp [step_of_fault fault] at steps
  | none =>
    refine ⟨rfl, ?_⟩
    rcases step_unfaulted_cases fault with ⟨failed, run⟩ | ⟨w, i, fetched, decoded, run⟩
    · refine .inl ⟨?_, (Host.Outcome.next.inj (run.symm.trans steps)).symm⟩
      by_contra inRange
      simp [State.iFetch_of_lt (Nat.lt_of_not_le inRange)] at failed
    · exact .inr ⟨w, i, fetched, decoded, effect_of_exec (run.symm.trans steps)⟩

/-- Settles O37: both cases of an unfaulted step answer a next state. -/
theorem unfaultedCoreAlwaysSteps : Obligations.UnfaultedCoreAlwaysSteps := by
  intro s unfaulted
  rcases step_unfaulted_cases unfaulted with ⟨-, run⟩ | ⟨w, i, -, -, run⟩
  · exact ⟨_, run⟩
  · rw [run]
    exact exec_next i s.advancePc

/-- Settles O35: the step of a faulted core answers the fault. -/
theorem faultedCoreTakesNoStep : Obligations.FaultedCoreTakesNoStep := by
  intro s f faulted
  have stops := step_of_fault faulted
  exact ⟨stops, fun t steps => by simp [stops] at steps, run_of_fault faulted⟩

/-- Settles O8: what the gated decoder yields is the decoded instruction or, if its condition fails, nothing. -/
theorem gatedDecoderDecidesTheStep : Obligations.GatedDecoderDecidesTheStep := by
  intro s w unfaulted fetched
  obtain ⟨i, decoded, fields⟩ := decode_total w
  have run := step_of_fetched unfaulted fetched decoded
  rw [decodeGated_of_decode decoded fields, run]
  cases gate : condex i.cond s.n s.z with
  | true => simp
  | false => simpa using failedConditionSkipsEveryInstruction i s.advancePc gate

/-! ### The fetch stage -/

/-- The increment changes `x[7]` and nothing else. -/
theorem advancePc_frame (s : State) :
    OthersKept 7 s s.advancePc ∧ FlagsKept s s.advancePc ∧ DataKept s s.advancePc ∧
      ProgramAndFaultKept s s.advancePc :=
  ⟨fun _ other => State.readReg_advancePc s other, ⟨rfl, rfl⟩, ⟨fun _ => rfl, rfl, rfl⟩, rfl, rfl⟩

/-- Settles O39: the increment and its frame, and the state in which either case of the step continues. -/
theorem fetchStageIncrementsThePc : Obligations.FetchStageIncrementsThePc := by
  intro s
  obtain ⟨others, flags, data, program⟩ := advancePc_frame s
  refine ⟨State.readReg_advancePc_seven_toNat s, others, flags, data, program, State.advancePc_we s,
    fun unfaulted => ?_⟩
  rcases step_unfaulted_cases unfaulted with ⟨-, run⟩ | ⟨w, i, fetched, decoded, run⟩
  · exact .inl ⟨_, run⟩
  · exact .inr ⟨w, fetched, .inl ⟨i, decoded, run⟩⟩

/-- Settles O32: a skipped instruction leaves the state the fetch stage left. -/
theorem skippedStepOnlyAdvancesThePc : Obligations.SkippedStepOnlyAdvancesThePc := by
  intro s unfaulted
  refine ⟨fun w i fetched decoded fails => ⟨s.advancePc, ?skips, State.readReg_advancePc_seven_toNat s,
    advancePc_frame s⟩, fun outOfRange => ?fault⟩
  case skips =>
    rw [step_of_fetched unfaulted fetched decoded, failedConditionSkipsEveryInstruction i s.advancePc fails]
  case fault => exact ⟨_, step_of_iFetch_none unfaulted (State.iFetch_of_size_le outOfRange), rfl⟩

theorem Memory.read_place_same (m : Memory) (a w : Word) : (m.place a w).read a = some w := by
  have reached : a.toNat < (m.place a w).size := lt_max_of_lt_right (Nat.lt_succ_self _)
  rw [Memory.read_of_lt reached, Memory.place, cellsGet_cellsSet, if_pos rfl]

/-- The word placed is the word fetched. -/
theorem iFetch_withFetchWord (s : State) (w : Word) :
    (s.withFetchWord 16 w.toNat).iFetch (s.withFetchWord 16 w.toNat).pc = some w := by
  have word : BitVec.ofNat 16 (w.toNat % 2 ^ 16) = w := by
    rw [Nat.mod_eq_of_lt w.isLt, BitVec.ofNat_toNat, BitVec.setWidth_eq]
  exact (Memory.read_place_same s.imem s.pc _).trans (congrArg some word)

/-- Settles O38, for the word in the program and for the word `withFetchWord` places. -/
theorem stepRunsTheDecodedInstruction : Obligations.StepRunsTheDecodedInstruction :=
  ⟨fun s _ _ unfaulted fetched decoded => ⟨step_of_fetched unfaulted fetched decoded,
      State.readReg_advancePc_seven_toNat s, advancePc_frame s⟩,
    fun s i unfaulted decoded => step_of_fetched unfaulted (iFetch_withFetchWord s (encode i)) decoded⟩

end Sys2Proof.Machine
end

section
/-! The faults of the dispatch stage (60_exceptions.md R180 to R186): the two that an instruction can raise, with the
information each carries. -/

namespace Sys2Proof.Machine

open Sys2Proof.Claims

/-- An instruction keeps the fault register, or divides by zero, or accesses out of range. -/
theorem Effect.fault_cases {s t : State} {i : Instr} (effect : Effect s i t) :
    t.fault = s.fault ∨
    (∃ op d c rd rn b, i = dpInstr op c rd rn b ∧ condex c s.n s.z = true ∧
      alu16 op (operandA s rn) (operandB s b) = .error d ∧
      t.fault = some (.divideByZero d (operandA s rn) (s.readReg 7 - 1) (encode i))) ∨
    (∃ o c rd rn b, i = mmInstr o c rd rn b ∧ condex c s.n s.z = true ∧
      s.dmem.size ≤ (ea o.operation s rn b).toNat ∧
      t.fault = some (.dmemIndexOutOfRange (ea o.operation s rn b) (s.readReg 7 - 1) (encode i))) := by
  cases effect with
  | skip fails => exact .inl rfl
  | result rd pass yields => exact .inl rfl
  | divisionByZero rd pass raises => exact .inr (.inl ⟨_, _, _, rd, _, _, rfl, pass, raises, rfl⟩)
  | load rd pass load found => exact .inl (addressStage_fault ..)
  | store pass store written =>
    obtain ⟨-, -, -, faultKept⟩ := State.memWrite_frame written
    exact .inl (faultKept.trans (addressStage_fault ..))
  | outOfRange rd pass beyond => exact .inr (.inr ⟨_, _, rd, _, _, rfl, pass, beyond, rfl⟩)

/-- The ALU raises exactly for DIV and REM with operand B zero. -/
theorem alu16_raises_iff (op : AluOp) (a b : Word) :
    (∃ d, alu16 op a b = .error d) ↔ (op = .div ∨ op = .rem) ∧ b = 0 := by
  simp only [alu16_error_iff]
  constructor
  · rintro ⟨d, zero, which⟩
    exact ⟨which.imp And.left And.left, zero⟩
  · rintro ⟨rfl | rfl, zero⟩
    · exact ⟨.div, zero, .inl ⟨rfl, rfl⟩⟩
    · exact ⟨.rem, zero, .inr ⟨rfl, rfl⟩⟩

/-- The four forms `DividesByZero` lists, as one condition on the operation and operand B. -/
theorem dividesByZero_dpInstr (op : AluOp) (c : Cond) (rd rn : RegIdx) (b : OperandB) (s : State) :
    DividesByZero (dpInstr op c rd rn b) s ↔ (op = .div ∨ op = .rem) ∧ operandB s b = 0 := by
  cases b with
  | reg m => cases op <;> simp [dpInstr, DividesByZero, operandB]
  | lit k =>
    rw [operandB_lit_eq_zero_iff]
    cases op <;> simp [dpInstr, DividesByZero]

/-- An instruction divides by zero exactly if the ALU raises on its operands. -/
theorem dividesByZero_iff_alu16_raises (op : AluOp) (c : Cond) (rd rn : RegIdx) (b : OperandB) (s : State) :
    DividesByZero (dpInstr op c rd rn b) s ↔ ∃ d, alu16 op (operandA s rn) (operandB s b) = .error d :=
  (dividesByZero_dpInstr op c rd rn b s).trans (alu16_raises_iff op _ _).symm

/-- The complete effect of a division by zero: the fault recorded and nothing else. -/
theorem divisionFaults_dpInstr {op : AluOp} {d : DivOp} {c : Cond} {rn : RegIdx} {b : OperandB} {s : State}
    (rd : RegIdx) (pass : condex c s.n s.z = true) (raises : alu16 op (operandA s rn) (operandB s b) = .error d) :
    DivisionFaults (dpInstr op c rd rn b) s d rn :=
  ⟨_, exec_of_effect (.divisionByZero rd pass raises), rfl, fun _ => rfl, rfl, ⟨rfl, rfl⟩, ⟨fun _ => rfl, rfl, rfl⟩,
    rfl⟩

/-- Settles O33: a division by zero raises, and of the effects of an instruction no other records that fault. -/
theorem divideByZeroFault : Obligations.DivideByZeroFault := by
  refine ⟨fun c rd rn s pass => ?raised, fun i s t d a p w unfaulted runs recorded => ?only⟩
  case raised =>
    have both : ∀ b, operandB s b = 0 → DivisionFaults (dpInstr .div c rd rn b) s .div rn ∧
        DivisionFaults (dpInstr .rem c rd rn b) s .rem rn := by
      intro b zero
      obtain ⟨divRaises, remRaises⟩ := alu16_div_rem_zero (operandA s rn) zero
      exact ⟨divisionFaults_dpInstr rd pass divRaises, divisionFaults_dpInstr rd pass remRaises⟩
    exact ⟨fun m zero => both (.reg m) zero, both (.lit 0) ((operandB_lit_eq_zero_iff s 0).2 rfl)⟩
  case only =>
    rcases (effect_of_exec runs).fault_cases with
      kept | ⟨op, d, c, rd, rn, b, rfl, pass, raises, -⟩ | ⟨o, c, rd, rn, b, rfl, -, -, other⟩
    · simp [recorded, unfaulted] at kept
    · exact ⟨(dpInstr_cond op c rd rn b).symm ▸ pass, (dividesByZero_iff_alu16_raises op c rd rn b s).2 ⟨d, raises⟩⟩
    · simp [recorded] at other

/-- After the fetch stage `x[7] - 1` is the index of the instruction (60_exceptions.md R181). -/
theorem advancePc_readReg_seven_sub_one (s : State) : s.advancePc.readReg 7 - 1 = s.pc :=
  (congrArg (· - 1) (State.advancePc_pc s)).trans (BitVec.add_sub_cancel s.pc 1)

/-- Settles O36: a fetch out of range, or one of the two faults of the dispatch stage. -/
theorem onlyTheThreeReachableFaults : Obligations.OnlyTheThreeReachableFaults := by
  intro s t f unfaulted steps recorded
  obtain ⟨-, ⟨outOfRange, rfl⟩ | ⟨w, i, fetched, decoded, effect⟩⟩ := step_next_cases steps
  · exact .inl ⟨(Option.some.inj recorded).symm, outOfRange⟩
  · refine .inr ⟨w, i, fetched, decoded, ?_⟩
    have cases := effect.fault_cases
    rw [recorded, advancePc_readReg_seven_sub_one, encode_of_decode decoded] at cases
    rcases cases with
      kept | ⟨op, d, c, rd, rn, b, rfl, pass, raises, fault⟩ | ⟨o, c, rd, rn, b, rfl, pass, beyond, fault⟩
    · simp [unfaulted] at kept
    · obtain ⟨zero, which⟩ := (alu16_error_iff ..).1 raises
      exact ⟨(dpInstr_cond op c rd rn b).symm ▸ pass,
        .inr ⟨op, d, c, rd, rn, b, rfl, which, zero, Option.some.inj fault⟩⟩
    · exact ⟨(mmInstr_cond o c rd rn b).symm ▸ pass, .inl ⟨o, c, rd, rn, b, rfl, beyond, Option.some.inj fault⟩⟩

end Sys2Proof.Machine
end

section
/-! Control transfer: which instructions can write `R7`, and the relative branches made of ADD and SUB
(44_control_transfer.md R150 to R153). -/

namespace Sys2Proof.Machine

open Sys2Proof.Claims

theorem canWritePc_dpInstr (op : AluOp) (c : Cond) (rd rn : RegIdx) (b : OperandB) :
    CanWritePc (dpInstr op c rd rn b) ↔ rd = 7 := by
  cases op <;> cases b <;> rfl

theorem canWritePc_mmInstr (o : MemOp) (c : Cond) (rd rn : RegIdx) (b : OperandB) :
    CanWritePc (mmInstr o c rd rn b) ↔ (o.write = false ∧ rd = 7) ∨ (o.writeBack = true ∧ rn = 7) := by
  obtain ⟨write, writeBack, operation⟩ := o
  cases write <;> cases writeBack <;> cases operation <;> cases b <;> simp [mmInstr, CanWritePc]

/-- Only the write-back of the address stage changes a register, the base. -/
theorem base_of_readReg_addressStage_ne {o : MemOp} {rn k : RegIdx} {a : Word} {s : State}
    (changed : (addressStage o rn a s).readReg k ≠ s.readReg k) : o.writeBack = true ∧ rn = k := by
  by_contra other
  exact changed (readReg_addressStage_other (fun writesBack same => other ⟨writesBack, same.symm⟩) a s)

theorem eq_of_readReg_writeReg_ne {s : State} {k j : RegIdx} {v w : Word} (before : s.readReg j = w)
    (changed : (s.writeReg k v).readReg j ≠ w) : k = j := by
  by_contra other
  exact changed ((State.readReg_writeReg_ne s v (Ne.symm other)).trans before)

/-- Settles O40, by the registers each effect writes. -/
theorem onlyListedWritesReachThePc : Obligations.OnlyListedWritesReachThePc := by
  intro i s t runs changed
  cases effect_of_exec runs with
  | skip fails => exact absurd rfl changed
  | result rd pass yields =>
    rw [dpInstr_cond, canWritePc_dpInstr]
    exact ⟨pass, eq_of_readReg_writeReg_ne (State.readReg_setFlags ..) changed⟩
  | divisionByZero rd pass raises => exact absurd rfl changed
  | load rd pass load found =>
    rw [mmInstr_cond, canWritePc_mmInstr]
    refine ⟨pass, or_iff_not_imp_right.2 fun notBase => ⟨load, ?_⟩⟩
    exact eq_of_readReg_writeReg_ne (by_contra fun ne => notBase (base_of_readReg_addressStage_ne ne)) changed
  | store pass store written =>
    obtain ⟨rfKept, -⟩ := State.memWrite_frame written
    rw [mmInstr_cond, canWritePc_mmInstr]
    rw [State.readReg, rfKept] at changed
    exact ⟨pass, .inr (base_of_readReg_addressStage_ne changed)⟩
  | outOfRange rd pass beyond =>
    rw [mmInstr_cond, canWritePc_mmInstr]
    exact ⟨pass, .inr (base_of_readReg_addressStage_ne changed)⟩

/-! ### Relative branches -/

/-- A step leads to `target`: the program counter is `target`, the flags are those of `target`, and nothing else
changes. -/
def BranchesTo (s : State) (target : Word) : Prop :=
  ∃ t, step s = .next t ∧ t.pc = target ∧ FlagsOf t.pc t ∧ OthersKept 7 s t ∧ DataKept s t ∧ ProgramAndFaultKept s t

section
variable {s : State} {w target : Word} {c : Cond} {b : OperandB} {op : AluOp}

/-- A data-processing instruction with `rd` and `rn` both `R7` branches to its result of `p + 1` and operand B. -/
theorem branchesTo_dpInstr (unfaulted : s.fault = none) (fetched : s.iFetch s.pc = some w)
    (pass : condex c s.n s.z = true) (decoded : decode w = .ok (dpInstr op c 7 7 b))
    (yields : alu16 op (s.pc + 1) (operandB s.advancePc b) = .ok target) : BranchesTo s target := by
  rw [← State.advancePc_pc] at yields
  obtain ⟨t, runs, result, flags, others, data, program, -⟩ := writesResult_dpInstr (s := s.advancePc) 7 pass yields
  refine ⟨t, (step_of_fetched unfaulted fetched decoded).trans runs, result, ?flags, ?others, data, program⟩
  case flags =>
    have pc : t.pc = target := result
    rwa [pc]
  case others => exact fun j other => (others j other).trans (State.readReg_advancePc s other)

/-- ADD branches forward, by operand B counted from `p + 1`. -/
theorem branchesTo_add (unfaulted : s.fault = none) (fetched : s.iFetch s.pc = some w)
    (pass : condex c s.n s.z = true) (decoded : decode w = .ok (dpInstr .add c 7 7 b)) :
    BranchesTo s (s.pc + 1 + operandB s.advancePc b) :=
  branchesTo_dpInstr unfaulted fetched pass decoded (alu16_add _ _)

/-- SUB branches backward, by operand B counted from `p + 1`. -/
theorem branchesTo_sub (unfaulted : s.fault = none) (fetched : s.iFetch s.pc = some w)
    (pass : condex c s.n s.z = true) (decoded : decode w = .ok (dpInstr .sub c 7 7 b)) :
    BranchesTo s (s.pc + 1 - operandB s.advancePc b) :=
  branchesTo_dpInstr unfaulted fetched pass decoded (alu16_sub _ _)

end

/-- Operand B after the fetch stage: a register, or `p + 1` for `R7`. -/
theorem operandB_reg_advancePc (s : State) (m : RegIdx) :
    operandB s.advancePc (.reg m) = if m = 7 then s.pc + 1 else s.readReg m :=
  State.readReg_advancePc_eq s m

/-- A forward target in exact arithmetic, operand B having the value `n` modulo `2 ^ 16`. -/
theorem forwardTarget_toNat {p b : Word} {n : Nat} (value : b.toNat = n % 2 ^ 16) :
    (p + 1 + b).toNat = (p.toNat + 1 + n) % 2 ^ 16 := by
  rw [BitVec.toNat_add, BitVec.toNat_add, value]
  change ((p.toNat + 1) % 2 ^ 16 + n % 2 ^ 16) % 2 ^ 16 = _
  omega

/-- A backward target in exact arithmetic, `2 ^ 16` added so that it does not go below zero. -/
theorem backwardTarget_toNat {p b : Word} {n : Nat} (value : b.toNat = n) :
    (p + 1 - b).toNat = (2 ^ 16 + p.toNat + 1 - n) % 2 ^ 16 := by
  have bLt := b.isLt
  rw [sub_toNat, BitVec.toNat_add, value]
  change (2 ^ 16 + (p.toNat + 1) % 2 ^ 16 - n) % 2 ^ 16 = _
  omega

/-- Settles O41: ADD branches forward, its target in exact arithmetic. -/
theorem forwardSkip : Obligations.ForwardSkip := by
  refine ⟨fun s w c unfaulted fetched pass => ⟨fun k decoded => ?literal, fun m decoded => ?register⟩,
    decodeInvertsEncode (.addLit .al 7 7 2), fun s unfaulted atThree fetched => ?word⟩
  case literal =>
    obtain ⟨t, steps, pc, rest⟩ := branchesTo_add (b := .lit k) unfaulted fetched pass decoded
    have value : (operandB s.advancePc (.lit k)).toNat = k.toNat % 2 ^ 16 := by
      have kLt := k.isLt
      rw [operandB_lit_toNat]
      omega
    exact ⟨t, steps, pc ▸ forwardTarget_toNat value, rest⟩
  case register =>
    obtain ⟨t, steps, pc, rest⟩ := branchesTo_add (b := .reg m) unfaulted fetched pass decoded
    refine ⟨t, steps, pc ▸ forwardTarget_toNat ?_, rest⟩
    rw [operandB_reg_advancePc]
    split
    · exact BitVec.toNat_add s.pc 1
    · exact (Nat.mod_eq_of_lt (BitVec.isLt _)).symm
  case word =>
    rw [← atThree] at fetched
    obtain ⟨t, steps, pc, -⟩ :=
      branchesTo_add (b := .lit 2) unfaulted fetched rfl (decodeInvertsEncode (.addLit .al 7 7 2))
    exact ⟨t, steps, pc.trans (by rw [atThree]; rfl)⟩

/-- Settles O42: SUB branches backward, its target in exact arithmetic. -/
theorem backwardBranch : Obligations.BackwardBranch := by
  refine ⟨fun s w c unfaulted fetched pass => ⟨fun k decoded => ?literal, fun m decoded => ?register⟩,
    decodeInvertsEncode (.subLit .p 7 7 3), decodeInvertsEncode (.subLit .al 7 7 1),
    fun s unfaulted atThree fetched => ?word⟩
  case literal =>
    obtain ⟨t, steps, pc, rest⟩ := branchesTo_sub (b := .lit k) unfaulted fetched pass decoded
    refine ⟨t, steps, pc ▸ backwardTarget_toNat (operandB_lit_toNat _ k), ?self, rest⟩
    case self =>
      rintro rfl
      exact pc.trans (BitVec.add_sub_cancel s.pc 1)
  case register =>
    obtain ⟨t, steps, pc, rest⟩ := branchesTo_sub (b := .reg m) unfaulted fetched pass decoded
    refine ⟨t, steps, pc.trans ?_, rest⟩
    rw [operandB_reg_advancePc]
    split
    · exact BitVec.sub_self _
    · rfl
  case word =>
    have fetched' : s.iFetch s.pc = some 0xCFFB := atThree ▸ fetched
    have decoded := decodeInvertsEncode (.subLit .p 7 7 3)
    cases pass : condex .p s.n s.z with
    | true =>
      obtain ⟨t, steps, pc, -⟩ := branchesTo_sub (b := .lit 3) unfaulted fetched' pass decoded
      rw [if_pos ((condex_p_iff ..).1 pass)]
      exact ⟨t, steps, pc.trans (by rw [atThree, operandB]; rfl)⟩
    | false =>
      have skips := failedConditionSkipsEveryInstruction (.subLit .p 7 7 3) s.advancePc pass
      rw [if_neg (mt (condex_p_iff ..).2 (by simp [pass]))]
      exact ⟨s.advancePc, (step_of_fetched unfaulted fetched' decoded).trans skips,
        (State.advancePc_pc s).trans (by rw [atThree]; rfl)⟩

end Sys2Proof.Machine
end

section
/-! The invariant of the core: each update of the state keeps it, so each effect of an instruction, each step and each
run does (10_state.md R18, R22; 70_reset_and_hazards.md R200 to R206). -/

namespace Sys2Proof.Machine

open Sys2Proof.Claims

/-! ### Updates -/

theorem coreInv_writeReg {s : State} (inv : CoreInv s) (k : RegIdx) (v : Word) : CoreInv (s.writeReg k v) :=
  { inv with rf_latch_low := State.writeReg_we s k v }

theorem coreInv_setFlags {s : State} (inv : CoreInv s) (r : Word) : CoreInv (s.setFlags r) :=
  { inv with flags_not_both := negFlag_zeroFlag r }

theorem coreInv_raise {s : State} (inv : CoreInv s) (f : Fault) : CoreInv (s.raise f) := { inv with }

theorem coreInv_advancePc {s : State} (inv : CoreInv s) : CoreInv s.advancePc := coreInv_writeReg inv pcIndex _

theorem coreInv_addressStage {s : State} (inv : CoreInv s) (o : MemOp) (rn : RegIdx) (a : Word) :
    CoreInv (addressStage o rn a s) := by
  unfold addressStage
  split
  · exact coreInv_writeReg (coreInv_setFlags inv a) rn a
  · exact coreInv_setFlags inv a

/-- A store keeps the canonical form, and its bracket leaves the data latch low. -/
theorem coreInv_memWrite {s t : State} {a v : Word} (inv : CoreInv s) (written : s.memWrite a v = some t) :
    CoreInv t := by
  obtain ⟨inRange, rfl⟩ := State.memWrite_cases written
  exact { inv with
    dmem_latch_low := rfl
    dmem_wf := cellsWf_cellsSet v s.dmem.cells inRange 0 (Nat.zero_le _) inv.dmem_wf }

/-! ### Instructions, steps and runs -/

theorem coreInv_effect {s t : State} {i : Instr} (inv : CoreInv s) (effect : Effect s i t) : CoreInv t := by
  cases effect with
  | skip fails => exact inv
  | result rd pass yields => exact coreInv_writeReg (coreInv_setFlags inv _) rd _
  | divisionByZero rd pass raises => exact coreInv_raise inv _
  | load rd pass load found => exact coreInv_writeReg (coreInv_addressStage inv ..) rd _
  | store pass store written => exact coreInv_memWrite (coreInv_addressStage inv ..) written
  | outOfRange rd pass beyond => exact coreInv_raise (coreInv_addressStage inv ..) _

/-- Settles O47: the fetch stage keeps the invariant, and so does each effect of an instruction. -/
theorem stepKeepsTheInvariant : Obligations.StepKeepsTheInvariant := by
  intro s t inv steps
  obtain ⟨-, ⟨-, rfl⟩ | ⟨w, i, -, -, effect⟩⟩ := step_next_cases steps
  · exact coreInv_raise (coreInv_advancePc inv) _
  · exact coreInv_effect (coreInv_advancePc inv) effect

/-- What every step keeps, every run keeps. -/
theorem run_induction {P : State → Prop} (keeps : ∀ s t, P s → step s = .next t → P t) (k : Nat) :
    ∀ s, P s → P (run k s) := by
  induction k with
  | zero => exact fun _ start => start
  | succ k ih =>
    intro s start
    cases steps : step s with
    | next t => exact run_succ_next k steps ▸ ih t (keeps s t start steps)
    | fault f => exact (run_succ_fault k steps).symm ▸ start
    | refused r => simpa [run, steps] using start

theorem coreInv_launch {p : Params} (wf : p.wf = true) : CoreInv (launch p) := by
  simp only [Params.wf, Bool.and_eq_true, decide_eq_true_eq] at wf
  obtain ⟨⟨⟨programFits, nonempty⟩, small⟩, initFits⟩ := wf
  exact ⟨rfl, rfl, rfl, by simp [launch, State.reset], Memory.wf_ofWords (Nat.le_refl _), Memory.wf_ofWords initFits,
    programFits, nonempty, small⟩

theorem launch_default : launch {} = State.reset := rfl

/-- Settles O48: reset is the launch with the default parameters, which are well-formed. -/
theorem resetSatisfiesTheInvariant : Obligations.ResetSatisfiesTheInvariant :=
  coreInv_launch (p := {}) (by decide)

/-- Settles O49, by induction over the run. -/
theorem everyRunKeepsTheInvariant : Obligations.EveryRunKeepsTheInvariant := by
  intro p k wf
  have inv := run_induction stepKeepsTheInvariant k (launch p) (coreInv_launch wf)
  exact ⟨inv, inv.flags_not_both⟩

end Sys2Proof.Machine
end

section
/-! Reset for given parameters: every register and cell of the launch state (10_state.md R24;
70_reset_and_hazards.md R200). -/

namespace Sys2Proof.Machine

/-- Words placed from index `lo` upward read back, and nothing else is placed. -/
theorem cellsGet_cellsOfWords (words : List Word) :
    ∀ lo a, lo ≤ a → cellsGet (cellsOfWords lo words) a = words[a - lo]?.getD 0 := by
  induction words with
  | nil => exact fun _ _ _ => rfl
  | cons v t ih =>
    intro lo a reached
    have tailWf := cellsWf_cellsOfWords _ t (lo + 1) (Nat.le_refl _)
    obtain rfl | above := Nat.eq_or_lt_of_le reached
    · by_cases zero : v = 0#16
      · simp [cellsOfWords, zero, cellsGet_of_lt_lo tailWf (Nat.lt_succ_self lo)]
      · simp [cellsOfWords, zero, cellsGet_head]
    · have tail : cellsGet (cellsOfWords lo (v :: t)) a = cellsGet (cellsOfWords (lo + 1) t) a := by
        by_cases zero : v = 0#16
        · simp [cellsOfWords, zero]
        · simp [cellsOfWords, zero, cellsGet_tail (Nat.ne_of_lt above)]
      have index : a - lo = a - (lo + 1) + 1 := by omega
      rw [tail, ih (lo + 1) a above, index, List.getElem?_cons_succ]

/-- A memory of `size` cells reads as the words supplied, and as 0x0000 beyond them. -/
theorem Memory.read_ofWords (size : Nat) (words : List Word) (a : Word) :
    (Memory.ofWords size words).read a = if a.toNat < size then some (words[a.toNat]?.getD 0) else none := by
  simp only [Memory.read, Memory.ofWords, cellsGet_cellsOfWords words 0 a.toNat (Nat.zero_le _), Nat.sub_zero]

/-- A memory just large enough for its words reads as them. -/
theorem Memory.read_ofWords_length (words : List Word) (a : Word) :
    (Memory.ofWords words.length words).read a = words[a.toNat]? := by
  rw [Memory.read_ofWords]
  by_cases inRange : a.toNat < words.length
  · simp [inRange]
  · simp [inRange]

theorem launch_readReg (p : Params) (k : RegIdx) : (launch p).readReg k = 0 :=
  Vector.getElem_replicate k.isLt

/-- Settles O50, from what the two memories and the register file read as. -/
theorem launchState : Obligations.LaunchState :=
  ⟨fun p _ => ⟨launch_readReg p, launch_readReg p pcIndex, rfl, rfl, rfl, rfl, rfl, rfl, rfl, rfl,
      Memory.read_ofWords_length p.program, Memory.read_ofWords p.dmemSize p.dmemInit⟩,
    launch_default⟩

end Sys2Proof.Machine
end

section
/-! What instructions and steps leave unchanged: the program always, the data memory unless they store, the flags
unless they execute (10_state.md R20, R21; 41_alu.md R99). -/

namespace Sys2Proof.Machine

open Sys2Proof.Claims

theorem effect_imem_dmemSize {s t : State} {i : Instr} (effect : Effect s i t) :
    t.imem = s.imem ∧ t.dmem.size = s.dmem.size := by
  cases effect with
  | skip fails => exact ⟨rfl, rfl⟩
  | result rd pass yields => exact ⟨rfl, rfl⟩
  | divisionByZero rd pass raises => exact ⟨rfl, rfl⟩
  | load rd pass load found => exact ⟨addressStage_imem .., congrArg Memory.size (addressStage_dmem ..)⟩
  | store pass store written =>
    obtain ⟨-, sizeKept⟩ := State.memWrite_latch_size written
    obtain ⟨-, -, imemKept, -⟩ := State.memWrite_frame written
    exact ⟨imemKept.trans (addressStage_imem ..), sizeKept.trans (congrArg Memory.size (addressStage_dmem ..))⟩
  | outOfRange rd pass beyond => exact ⟨addressStage_imem .., congrArg Memory.size (addressStage_dmem ..)⟩

/-- Settles O51, from the same of each effect. -/
theorem stepNeverWritesTheProgram : Obligations.StepNeverWritesTheProgram := by
  intro s t steps
  obtain ⟨-, ⟨-, rfl⟩ | ⟨w, i, -, -, effect⟩⟩ := step_next_cases steps
  · exact ⟨rfl, fun _ => rfl, rfl⟩
  · obtain ⟨imemKept, sizeKept⟩ := effect_imem_dmemSize effect
    exact ⟨imemKept, fun a => congrArg (Memory.read · a) imemKept, sizeKept⟩

theorem isStore_mmInstr (o : MemOp) (c : Cond) (rd rn : RegIdx) (b : OperandB) :
    IsStore (mmInstr o c rd rn b) ↔ o.write = true := by
  obtain ⟨write, writeBack, operation⟩ := o
  cases write <;> cases writeBack <;> cases operation <;> cases b <;> simp [mmInstr, IsStore]

/-- An instruction keeps what a cell reads, or it is a store to that cell, which raises nothing. -/
theorem Effect.memRead_cases {s t : State} {i : Instr} (effect : Effect s i t) (a : Word) :
    t.memRead a = s.memRead a ∨
    (a.toNat < s.dmem.size ∧ t.fault = s.fault ∧ ∃ o c rd rn b, i = mmInstr o c rd rn b ∧ o.write = true ∧
      condex c s.n s.z = true ∧ ea o.operation s rn b = a) := by
  cases effect with
  | skip fails => exact .inl rfl
  | result rd pass yields => exact .inl rfl
  | divisionByZero rd pass raises => exact .inl rfl
  | load rd pass load found => exact .inl (memRead_addressStage ..)
  | store pass store written =>
    obtain ⟨inRange, -⟩ := State.memWrite_cases written
    obtain ⟨-, -, -, faultKept⟩ := State.memWrite_frame written
    rw [State.memRead_memWrite written]
    split
    case isTrue here =>
      subst here
      rw [addressStage_dmem] at inRange
      exact .inr ⟨inRange, faultKept.trans (addressStage_fault ..), _, _, _, _, _, rfl, store, pass, rfl⟩
    case isFalse elsewhere => exact .inl (memRead_addressStage ..)
  | outOfRange rd pass beyond => exact .inl (memRead_addressStage ..)

/-- Settles O52: an instruction that changes a cell is a store to it. -/
theorem onlyStoresChangeTheDataMemory : Obligations.OnlyStoresChangeTheDataMemory := by
  intro i s t a runs changed
  rcases (effect_of_exec runs).memRead_cases a with kept | ⟨-, faultKept, o, c, rd, rn, b, rfl, store, pass, -⟩
  · exact absurd kept changed
  · rw [isStore_mmInstr, mmInstr_cond]
    exact ⟨store, pass, faultKept⟩

theorem not_dividesByZero_mmInstr (o : MemOp) (c : Cond) (rd rn : RegIdx) (b : OperandB) (s : State) :
    ¬DividesByZero (mmInstr o c rd rn b) s := by
  obtain ⟨write, writeBack, operation⟩ := o
  cases write <;> cases writeBack <;> cases operation <;> cases b <;> exact id

/-- A memory-manipulation instruction whose condition holds is executed, and sets the flags from its address. -/
theorem mmInstr_executes {o : MemOp} {c : Cond} {s : State} (pass : condex c s.n s.z = true) (rd rn : RegIdx)
    (b : OperandB) : (condex (mmInstr o c rd rn b).cond s.n s.z = true ∧ ¬DividesByZero (mmInstr o c rd rn b) s) ∧
      FlagSource (mmInstr o c rd rn b) s (ea o.operation s rn b) :=
  ⟨⟨(mmInstr_cond o c rd rn b).symm ▸ pass, not_dividesByZero_mmInstr o c rd rn b s⟩,
    .inr ⟨o, c, rd, rn, b, rfl, rfl⟩⟩

/-- An instruction whose condition fails or that divides by zero keeps the flags; any other sets them from its flag
source. -/
theorem Effect.flags_cases {s t : State} {i : Instr} (effect : Effect s i t) :
    (condex i.cond s.n s.z = false ∨ DividesByZero i s) ∧ FlagsKept s t ∨
    (condex i.cond s.n s.z = true ∧ ¬DividesByZero i s) ∧
      ∃ r, FlagSource i s r ∧ t.n = negFlag r ∧ t.z = zeroFlag r := by
  cases effect with
  | skip fails => exact .inl ⟨.inl fails, rfl, rfl⟩
  | result rd pass yields =>
    rw [dpInstr_cond, dividesByZero_iff_alu16_raises, yields]
    exact .inr ⟨⟨pass, by simp⟩, _, .inl ⟨_, _, rd, _, _, rfl, yields⟩, rfl, rfl⟩
  | divisionByZero rd pass raises =>
    rw [dividesByZero_iff_alu16_raises]
    exact .inl ⟨.inr ⟨_, raises⟩, rfl, rfl⟩
  | load rd pass load found =>
    obtain ⟨executes, source⟩ := mmInstr_executes pass rd ..
    exact .inr ⟨executes, _, source, addressStage_n .., addressStage_z ..⟩
  | store pass store written =>
    obtain ⟨-, ⟨nKept, zKept⟩, -⟩ := State.memWrite_frame written
    obtain ⟨executes, source⟩ := mmInstr_executes pass ..
    exact .inr ⟨executes, _, source, nKept.trans (addressStage_n ..), zKept.trans (addressStage_z ..)⟩
  | outOfRange rd pass beyond =>
    obtain ⟨executes, source⟩ := mmInstr_executes pass rd ..
    exact .inr ⟨executes, _, source, addressStage_n .., addressStage_z ..⟩

/-- Settles O53, by the flags each effect leaves. -/
theorem executedInstructionsRewriteBothFlags : Obligations.ExecutedInstructionsRewriteBothFlags := by
  intro i s t runs
  rcases (effect_of_exec runs).flags_cases with ⟨idle, kept⟩ | ⟨⟨pass, divides⟩, r, source, nSet, zSet⟩
  · refine ⟨fun _ => kept, fun pass divides => ?_⟩
    simp [pass, divides] at idle
  · refine ⟨fun idle => ?_, fun _ _ => ⟨⟨r, source, ?flags⟩, ?notBoth⟩⟩
    · simp [pass, divides] at idle
    case flags =>
      rw [FlagsOf, nSet, zSet]
      exact ⟨negFlag_iff r, zeroFlag_iff r⟩
    case notBoth =>
      rw [nSet, zSet]
      exact negFlag_zeroFlag r

end Sys2Proof.Machine
end

section
/-! What no instruction reads: a change of the state that every operation carries along unseen, an instruction carries
along. The latches (10_state.md R22) and the recorded fault (R23) are such. -/

namespace Sys2Proof.Machine

open Sys2Proof.Claims

/-- No operation of the dispatch stage sees `φ`: what is read is the same, and each update commutes with it. -/
structure Unseen (φ : State → State) : Prop where
  readReg  : ∀ s k, (φ s).readReg k = s.readReg k
  n        : ∀ s, (φ s).n = s.n
  z        : ∀ s, (φ s).z = s.z
  memRead  : ∀ s a, (φ s).memRead a = s.memRead a
  dmemSize : ∀ s, (φ s).dmem.size = s.dmem.size
  writeReg : ∀ s k v, φ (s.writeReg k v) = (φ s).writeReg k v
  setFlags : ∀ s r, φ (s.setFlags r) = (φ s).setFlags r
  raise    : ∀ s f, φ (s.raise f) = (φ s).raise f
  memWrite : ∀ s a v, (φ s).memWrite a v = (s.memWrite a v).map φ

namespace Unseen

variable {φ : State → State} (unseen : Unseen φ)
include unseen

theorem condex (c : Cond) (s : State) : Sys2Proof.condex c (φ s).n (φ s).z = Sys2Proof.condex c s.n s.z := by
  rw [unseen.n, unseen.z]

theorem operandB (s : State) (b : OperandB) : Machine.operandB (φ s) b = Machine.operandB s b := by
  cases b with
  | reg m => exact unseen.readReg s m
  | lit k => rfl

theorem alu16 (op : AluOp) (s : State) (rn : RegIdx) (b : OperandB) :
    Machine.alu16 op (operandA (φ s) rn) (Machine.operandB (φ s) b) =
      Machine.alu16 op (operandA s rn) (Machine.operandB s b) := by
  rw [operandA, unseen.readReg, unseen.operandB, operandA]

theorem ea (o : AddrOp) (s : State) (rn : RegIdx) (b : OperandB) : Claims.ea o (φ s) rn b = Claims.ea o s rn b := by
  rw [Claims.ea, operandA, unseen.readReg, unseen.operandB, Claims.ea, operandA]

theorem addressStage (o : MemOp) (rn : RegIdx) (a : Word) (s : State) :
    φ (Machine.addressStage o rn a s) = Machine.addressStage o rn a (φ s) := by
  unfold Machine.addressStage
  split
  · rw [unseen.writeReg, unseen.setFlags]
  · exact unseen.setFlags s a

/-- An instruction carries along what its operations do not see. -/
theorem effect {s t : State} {i : Instr} (effect : Effect s i t) : Effect (φ s) i (φ t) := by
  cases effect with
  | skip fails => exact .skip ((unseen.condex ..).trans fails)
  | result rd pass yields =>
    rw [unseen.writeReg, unseen.setFlags]
    exact .result rd ((unseen.condex ..).trans pass) ((unseen.alu16 ..).trans yields)
  | divisionByZero rd pass raises =>
    rw [unseen.raise, ← unseen.readReg, ← unseen.readReg s 7]
    exact .divisionByZero rd ((unseen.condex ..).trans pass) ((unseen.alu16 ..).trans raises)
  | load rd pass load found =>
    rw [unseen.writeReg, unseen.addressStage, ← unseen.ea]
    refine .load rd ((unseen.condex ..).trans pass) load ?_
    rw [unseen.memRead, unseen.ea, found]
  | @store o c rd rn b t pass store written =>
    refine .store (rd := rd) ((unseen.condex ..).trans pass) store ?_
    rw [unseen.ea, ← unseen.addressStage, unseen.readReg, unseen.memWrite, written]
    rfl
  | @outOfRange o c rn b rd pass beyond =>
    rw [unseen.raise, unseen.addressStage, ← unseen.readReg s 7, ← unseen.ea]
    refine .outOfRange rd ((unseen.condex ..).trans pass) ?_
    rwa [unseen.dmemSize, unseen.ea]

theorem advancePc (s : State) : φ s.advancePc = (φ s).advancePc := by
  rw [State.advancePc, unseen.writeReg, State.pc, ← unseen.readReg]
  rfl

end Unseen

/-! ### The latches -/

/-- The three latches are not seen: every write brackets its own (10_state.md R14; 20_memory.md R34). -/
theorem unseen_latchesLowered : Unseen latchesLowered where
  readReg  := fun _ _ => rfl
  n        := fun _ => rfl
  z        := fun _ => rfl
  memRead  := fun _ _ => rfl
  dmemSize := fun _ => rfl
  writeReg := fun _ _ _ => rfl
  setFlags := fun _ _ => rfl
  raise    := fun _ _ => rfl
  memWrite := fun s a v => by
    rw [State.memWrite_eq, State.memWrite_eq]
    by_cases inRange : a.toNat < s.dmem.size
    · simp [latchesLowered, inRange]
    · simp [latchesLowered, inRange]

/-- Lowering the latches before a step lowers them after it, and changes nothing else. -/
theorem step_latchesLowered {s t : State} (steps : step s = .next t) :
    step (latchesLowered s) = .next (latchesLowered t) := by
  obtain ⟨unfaulted, ⟨outOfRange, rfl⟩ | ⟨w, i, fetched, decoded, effect⟩⟩ := step_next_cases steps
  · rw [unseen_latchesLowered.raise, unseen_latchesLowered.advancePc]
    exact step_of_iFetch_none unfaulted (State.iFetch_of_size_le outOfRange)
  · have lowered := unseen_latchesLowered.effect effect
    rw [unseen_latchesLowered.advancePc] at lowered
    exact (step_of_fetched (s := latchesLowered s) unfaulted fetched decoded).trans (exec_of_effect lowered)

/-- Settles O54: both steps are the step from the one state with its latches lowered. -/
theorem latchesNeverMatter : Obligations.LatchesNeverMatter := by
  intro s s' agree
  have faults : (latchesLowered s).fault = (latchesLowered s').fault := congrArg State.fault agree
  cases faulted : s.fault with
  | some f => exact .inl ⟨f, step_of_fault faulted, step_of_fault (faults.symm.trans faulted)⟩
  | none =>
    obtain ⟨t, steps⟩ := unfaultedCoreAlwaysSteps s faulted
    obtain ⟨t', steps'⟩ := unfaultedCoreAlwaysSteps s' (faults.symm.trans faulted)
    have lowered := step_latchesLowered steps
    rw [agree, step_latchesLowered steps'] at lowered
    exact .inr ⟨t, t', steps, steps', (Host.Outcome.next.inj lowered).symm⟩

/-! ### The recorded fault -/

/-- `s` with `f` recorded, unless a fault is recorded already. -/
def withFault (f : Fault) (s : State) : State := { s with fault := s.fault.or (some f) }

/-- The fault register is not seen: an instruction writes it, and does not read it (10_state.md R23). -/
theorem unseen_withFault (f : Fault) : Unseen (withFault f) where
  readReg  := fun _ _ => rfl
  n        := fun _ => rfl
  z        := fun _ => rfl
  memRead  := fun _ _ => rfl
  dmemSize := fun _ => rfl
  writeReg := fun _ _ _ => rfl
  setFlags := fun _ _ => rfl
  raise    := fun _ _ => rfl
  memWrite := fun s a v => by
    rw [State.memWrite_eq, State.memWrite_eq]
    by_cases inRange : a.toNat < s.dmem.size
    · simp [withFault, inRange]
    · simp [withFault, inRange]

/-- Settles O55: a faulted core takes no step, and an instruction carries a recorded fault along. -/
theorem faultIsTerminalAndUnread : Obligations.FaultIsTerminalAndUnread := by
  refine ⟨rfl, fun _ => rfl, fun s f faulted => ?terminal, fun i s f unfaulted => ?unread⟩
  case terminal =>
    obtain ⟨-, noStep, runs⟩ := faultedCoreTakesNoStep s f faulted
    exact ⟨noStep, fun k => (congrArg State.fault (runs k)).trans faulted⟩
  case unread =>
    obtain ⟨t, runs⟩ := exec_next i s
    have carried := exec_of_effect ((unseen_withFault f).effect (effect_of_exec runs))
    have recorded : withFault f s = { s with fault := some f } := by rw [withFault, unfaulted, Option.none_or]
    refine ⟨t, withFault f t, runs, recorded ▸ carried, rfl, fun none => ?_, fun raised => ?_⟩
    · rw [withFault, none, Option.none_or]
    · obtain ⟨g, raised⟩ := Option.ne_none_iff_exists'.1 raised
      rw [withFault, raised, Option.some_or]

end Sys2Proof.Machine
end

section
/-! Runs of whole steps: how a run ends (70_reset_and_hazards.md R206), and what a load returns after stores anywhere
before it (20_memory.md R40). -/

namespace Sys2Proof.Machine

open Sys2Proof.Claims

/-- From an unfaulted state a run goes on by one step. -/
theorem step_run {s : State} {k : Nat} (unfaulted : (run k s).fault = none) :
    step (run k s) = .next (run (k + 1) s) := by
  obtain ⟨t, steps⟩ := unfaultedCoreAlwaysSteps (run k s) unfaulted
  rw [run_succ_last, steps]

/-- A run that has faulted stays where it is. -/
theorem run_succ_of_run_fault {s : State} {k : Nat} (faulted : (run k s).fault ≠ none) :
    run (k + 1) s = run k s := by
  obtain ⟨f, faulted⟩ := Option.ne_none_iff_exists'.1 faulted
  rw [run_succ_last, step_of_fault faulted]

/-- Settles O56, by induction on the number of steps: the last step is the first to record a fault, or follows one,
or records none. -/
theorem runEndsInOneOfTwoWays : Obligations.RunEndsInOneOfTwoWays := by
  intro cycles s unfaulted
  induction cycles with
  | zero =>
    refine .inl ⟨fun k atStart => ?_, fun k beforeStart => absurd beforeStart (Nat.not_lt_zero k)⟩
    rwa [Nat.le_zero.1 atStart]
  | succ n ih =>
    rcases ih with ⟨clean, -⟩ | ⟨k, pos, within, clean, steps, faulted, ends⟩
    · have clean' : ∀ k < n + 1, (run k s).fault = none := fun k before => clean k (Nat.le_of_lt_succ before)
      have steps : ∀ k < n + 1, step (run k s) = .next (run (k + 1) s) := fun k before => step_run (clean' k before)
      by_cases last : (run (n + 1) s).fault = none
      · refine .inl ⟨fun k within => ?_, steps⟩
        rcases Nat.lt_or_eq_of_le within with before | rfl
        · exact clean' k before
        · exact last
      · exact .inr ⟨n + 1, Nat.succ_pos n, Nat.le_refl _, clean', steps, last, rfl⟩
    · have stays := run_succ_of_run_fault (ends ▸ faulted)
      exact .inr ⟨k, pos, Nat.le_succ_of_le within, clean, steps, faulted, stays.trans ends⟩

/-! ### Stores and loads in a run -/

theorem storesWord_step {s : State} {a v : Word} (stores : StoresWord s a v) :
    ∃ t, step s = .next t ∧ t.memRead a = some v := by
  obtain ⟨unfaulted, inRange, w, o, c, rd, rn, b, fetched, decoded, store, pass, rfl, rfl⟩ := stores
  obtain ⟨t, runs, stored, -⟩ := stores_mmInstr (s := s.advancePc) rd pass store inRange
  exact ⟨t, (step_of_fetched unfaulted fetched decoded).trans runs, stored⟩

theorem lt_size_of_memRead {s : State} {a v : Word} (cell : s.memRead a = some v) : a.toNat < s.dmem.size := by
  by_contra beyond
  simp [State.memRead_of_size_le (Nat.le_of_not_lt beyond)] at cell

theorem loadsWord_step {s : State} {a v : Word} {rd : RegIdx} (loads : LoadsWord s a rd)
    (cell : s.memRead a = some v) : ∃ t, step s = .next t ∧ t.readReg rd = v ∧ t.fault = none := by
  obtain ⟨unfaulted, w, o, c, rn, b, fetched, decoded, load, pass, rfl⟩ := loads
  obtain ⟨t, runs, loaded, -, -, -, -, ⟨-, faultKept⟩, -⟩ :=
    loads_mmInstr (s := s.advancePc) rd pass load (lt_size_of_memRead cell)
  exact ⟨t, (step_of_fetched unfaulted fetched decoded).trans runs, Option.some.inj (loaded.symm.trans cell),
    faultKept.trans unfaulted⟩

/-- A step that stores nothing at `a` keeps the cell. -/
theorem memRead_step {s t : State} {a : Word} (steps : step s = .next t) (noStore : ¬∃ u, StoresWord s a u) :
    t.memRead a = s.memRead a := by
  obtain ⟨unfaulted, ⟨-, rfl⟩ | ⟨w, i, fetched, decoded, effect⟩⟩ := step_next_cases steps
  · rfl
  · rcases effect.memRead_cases a with kept | ⟨inRange, -, o, c, rd, rn, b, rfl, store, pass, here⟩
    · exact kept
    · exact absurd ⟨_, unfaulted, inRange, w, o, c, rd, rn, b, fetched, decoded, store, pass, here, rfl⟩ noStore

/-- A run none of whose steps stores at `a` keeps the cell. -/
theorem memRead_run {s : State} {a : Word} (k : Nat) (noStore : ∀ j, j < k → ¬∃ u, StoresWord (run j s) a u) :
    (run k s).memRead a = s.memRead a := by
  induction k with
  | zero => rfl
  | succ k ih =>
    have before := ih fun j earlier => noStore j (Nat.lt_succ_of_lt earlier)
    by_cases unfaulted : (run k s).fault = none
    · exact (memRead_step (step_run unfaulted) (noStore k (Nat.lt_succ_self k))).trans before
    · rwa [run_succ_of_run_fault unfaulted]

/-- Settles O30: the cell keeps the Word stored, or the initial datum, up to the load. -/
theorem loadReturnsTheLastStore : Obligations.LoadReturnsTheLastStore := by
  refine ⟨fun s a v k rd stores noStore loads => ?afterStore, fun p a k rd inRange noStore loads => ?initial⟩
  case afterStore =>
    obtain ⟨t, steps, stored⟩ := storesWord_step stores
    have fromStore : ∀ j, run (j + 1) s = run j t := fun j => run_succ_next j steps
    rw [fromStore] at loads ⊢
    refine loadsWord_step loads ((memRead_run k fun j before => ?_).trans stored)
    rw [← fromStore]
    exact noStore (j + 1) (Nat.succ_pos j) before
  case initial =>
    have datum : (launch p).memRead a = some (p.dmemInit[a.toNat]?.getD 0) :=
      (Memory.read_ofWords p.dmemSize p.dmemInit a).trans (if_pos inRange)
    exact loadsWord_step loads ((memRead_run k noStore).trans datum)

end Sys2Proof.Machine
end

section
/-! Beside the core: the ALU of the 32-bit variant, and the refusal of the variant itself (45_variant32.md R161, R162,
R165). -/

namespace Sys2Proof.Machine

theorem alu32_add (a b : BitVec 32) : alu32 0 a b = .ok (a + b) := rfl

theorem alu32_sub (a b : BitVec 32) : alu32 1 a b = .ok (a - b) := rfl

theorem alu32_sltu (a b : BitVec 32) : alu32 7 a b = .ok (if a.toNat < b.toNat then 1 else 0) := rfl

theorem alu32_shiftLeft (a : BitVec 32) {b : BitVec 32} (small : b.toNat < 32) :
    alu32 5 a b = .ok (a <<< b.toNat) :=
  if_pos small

theorem alu32_shiftRight (a : BitVec 32) {b : BitVec 32} (small : b.toNat < 32) :
    alu32 6 a b = .ok (a >>> b.toNat) :=
  if_pos small

/-- Shifts by 32 or more are left open (log entry 11). -/
theorem alu32_shift_open (a : BitVec 32) {b : BitVec 32} (large : 32 ≤ b.toNat) :
    alu32 5 a b = .error (.shift32AmountOpen b) ∧ alu32 6 a b = .error (.shift32AmountOpen b) :=
  ⟨if_neg (Nat.not_lt.2 large), if_neg (Nat.not_lt.2 large)⟩

/-- Settles O57, row by row of the table. -/
theorem alu32Table : Obligations.Alu32Table := by
  intro a b
  refine ⟨⟨_, alu32_add a b, BitVec.toNat_add a b⟩, ⟨_, alu32_sub a b, ?difference⟩, rfl, rfl, rfl,
    fun small => ⟨_, _, alu32_shiftLeft a small, alu32_shiftRight a small, ?left, ?right⟩,
    alu32_shift_open a, ⟨_, alu32_sltu a b, ?less, ?notLess⟩⟩
  case difference =>
    have bLt := b.isLt
    rw [BitVec.toNat_sub]
    omega
  case left => rw [BitVec.toNat_shiftLeft, Nat.shiftLeft_eq]
  case right => rw [BitVec.toNat_ushiftRight, Nat.shiftRight_eq_div_pow]
  case less => exact fun less => by rw [if_pos less]; rfl
  case notLess => exact fun notLess => by rw [if_neg (Nat.not_lt.2 notLess)]; rfl

/-- Settles O58: the launch of each variant, by its definition. -/
theorem variant32IsRefused : Obligations.Variant32IsRefused := fun _ => ⟨rfl, rfl⟩

end Sys2Proof.Machine
end

section
/-! The loader: a line's comment is cut off, and sixteen base-2 digits are read back as their word
(30_encoding.md R62). -/

namespace Sys2Proof.Machine

open Sys2Proof.Claims

/-! ### Comments -/

theorem stripComment_cons {c : Char} (notSlash : c ≠ '/') (t : List Char) :
    stripComment (c :: t) = c :: stripComment t :=
  if_neg fun ⟨slash, _⟩ => notSlash slash

/-- Text without a slash is kept up to what follows it. -/
theorem stripComment_append {text : List Char} (noSlash : ∀ c ∈ text, c ≠ '/') (rest : List Char) :
    stripComment (text ++ rest) = text ++ stripComment rest := by
  induction text with
  | nil => rfl
  | cons c t ih =>
    obtain ⟨head, tail⟩ := List.forall_mem_cons.1 noSlash
    rw [List.cons_append, stripComment_cons head, ih tail, List.cons_append]

theorem stripComment_comment (rest : List Char) : stripComment ('/' :: '/' :: rest) = [] := rfl

/-! ### Base-2 digits -/

/-- The lowest `n` bits of `x` as base-2 digits, most significant first. -/
def lowDigits (n x : Nat) : List Char :=
  (List.range n).map fun k => if x.testBit (n - 1 - k) then '1' else '0'

theorem digits_eq_lowDigits (w : Word) : digits w = lowDigits 16 w.toNat := rfl

theorem lowDigits_succ (n x : Nat) :
    lowDigits (n + 1) x = (if x.testBit n then '1' else '0') :: lowDigits n x := by
  rw [lowDigits, List.range_succ_eq_map, List.map_cons, List.map_map]
  congr 1
  refine List.map_congr_left fun k _ => ?_
  have place : n + 1 - 1 - (k + 1) = n - 1 - k := by omega
  simp only [Function.comp, Nat.succ_eq_add_one, place]

theorem mem_lowDigits {n x : Nat} {c : Char} (digit : c ∈ lowDigits n x) : c = '0' ∨ c = '1' := by
  obtain ⟨k, -, rfl⟩ := List.mem_map.1 digit
  cases x.testBit (n - 1 - k)
  · exact .inl rfl
  · exact .inr rfl

/-- A digit doubles what stands before it and adds its bit. -/
theorem binaryValue_digit (acc : Nat) (bit : Bool) (t : List Char) :
    binaryValue acc ((if bit then '1' else '0') :: t) = binaryValue (2 * acc + bit.toNat) t := by
  cases bit <;> rfl

/-- Reading digits back, after a numeral whose value is `acc`. -/
theorem binaryValue_lowDigits (n x : Nat) :
    ∀ acc, binaryValue acc (lowDigits n x) = some (acc * 2 ^ n + x % 2 ^ n) := by
  induction n with
  | zero => intro acc; simp [lowDigits, binaryValue, Nat.mod_one]
  | succ n ih =>
    intro acc
    rw [lowDigits_succ, binaryValue_digit, ih, Nat.mod_pow_succ, ← Nat.toNat_testBit]
    refine congrArg some ?_
    ring

/-! ### Lines -/

/-- Digits are neither white space nor underscores, so all of them are parsed, and a comment after them is not. -/
theorem lineToken_digits (w : Word) {suffix : List Char} (comment : stripComment suffix = []) :
    lineToken (digits w ++ suffix) = digits w := by
  have isDigit : ∀ c ∈ digits w, c = '0' ∨ c = '1' := fun c member => mem_lowDigits (n := 16) (x := w.toNat) member
  have noSlash : ∀ c ∈ digits w, c ≠ '/' := by
    intro c member
    rcases isDigit c member with rfl | rfl <;> decide
  rw [lineToken, stripComment_append noSlash, comment, List.append_nil, List.filter_eq_self]
  intro c member
  rcases isDigit c member with rfl | rfl <;> decide

theorem parseLine_digits (w : Word) {suffix : List Char} (comment : stripComment suffix = []) :
    parseLine (digits w ++ suffix) = some w := by
  have value : binaryValue 0 (digits w) = some w.toNat := by
    rw [digits_eq_lowDigits, binaryValue_lowDigits, Nat.zero_mul, Nat.zero_add, Nat.mod_eq_of_lt w.isLt]
  have nonempty : digits w ≠ [] := List.cons_ne_nil _ _
  rw [parseLine, lineToken_digits w comment, if_neg nonempty, value]
  simp [w.isLt]

/-- An image of one line per word, each followed by the same comment or none, is those words. -/
theorem parseImage_digits (words : List Word) {suffix : List Char} (comment : stripComment suffix = []) :
    parseImage (words.map fun w => digits w ++ suffix) = words := by
  rw [parseImage, List.filterMap_map]
  exact (List.filterMap_congr fun w _ => parseLine_digits w comment).trans List.filterMap_some

/-- A line of white space before a comment takes no cell. -/
theorem parseLine_comment {blanks : List Char} (blank : ∀ c ∈ blanks, c.isWhitespace = true) (rest : List Char) :
    parseLine (blanks ++ '/' :: '/' :: rest) = none := by
  have noSlash : ∀ c ∈ blanks, c ≠ '/' := by
    rintro c member rfl
    exact absurd (blank '/' member) (by decide)
  have empty : lineToken (blanks ++ '/' :: '/' :: rest) = [] := by
    rw [lineToken, stripComment_append noSlash, stripComment_comment, List.append_nil, List.filter_eq_nil_iff]
    intro c member
    simp [blank c member]
  rw [parseLine, if_pos empty]

/-- Settles O59, from the line of a word and the line of a comment. -/
theorem loaderReadsBackBinaryLines : Obligations.LoaderReadsBackBinaryLines := by
  refine ⟨fun words comment => ⟨parseImage_digits words (stripComment_comment comment), ?plain⟩,
    fun blanks rest blank => parseLine_comment blank rest⟩
  case plain => simpa only [List.append_nil] using parseImage_digits words (suffix := []) rfl

end Sys2Proof.Machine
end
